-- ==== Sys2Proof/Word.lean ====
section
/-! DEFINITION. The bit vectors of the core and nothing else: bytes, 16-bit words, the operand fields of an opcode. -/

namespace Sys2Proof

/-- One byte of Memory, one `V` register, one timer (R10, R14, R15, R30). -/
abbrev Byte := BitVec 8

/-- A 16-bit word: the opcode (R50), `I` (R12), `PC` (R13), a stack entry (R16). -/
abbrev Word := BitVec 16

/-- The 12-bit field `nnn` of an opcode (R51). -/
abbrev Addr12 := BitVec 12

/-- The 4-bit field `n` of an opcode, the row count of `Dxyn` (R51, R53). -/
abbrev Nibble := BitVec 4

/-- A register index, the 4-bit field `x` or `y` of an opcode; all sixteen values name a register (R10, R51). -/
abbrev Reg := BitVec 4

/-- A key number, 0 to 15 (R8). -/
abbrev Key := BitVec 4

/-- `V0`, the implicit operand of `Bnnn` (R93). -/
abbrev Reg.v0 : Reg := 0x0#4

/-- `VF`, the flag register (R9, R11). -/
abbrev Reg.vf : Reg := 0xF#4

end Sys2Proof
end

