-- ==== Sys2Proof/Config.lean ====
section
/-! DEFINITION. The parameters of the core (R5), what the environment gives it at each step (R8), and the one free
value of the model. -/

namespace Sys2Proof

/-- The two parameters that rule R5 leaves OPEN. They are held in the state as plain data that no step changes, so a
statement about every state is a statement about every value of them (log entry 2). -/
structure Config where
  /-- `FONT_BASE`, the address of glyph 0. -/
  fontBase : Word
  /-- `PROG_BASE`, the address of the first program byte and the reset value of `PC`. -/
  progBase : Word
  deriving DecidableEq, Repr

namespace Config

/-- `MEM_SIZE` (R5). -/
abbrev memSize : Nat := 4096
/-- `FB_SIZE` (R5). -/
abbrev fbSize : Nat := 256
/-- `FB_BASE` = MEM_SIZE - FB_SIZE (R5). -/
abbrev fbBase : Nat := 0xF00
/-- `SCREEN_W`, pixels in a row (R5). -/
abbrev screenW : Nat := 64
/-- `SCREEN_H`, rows (R5). -/
abbrev screenH : Nat := 32
/-- `ROW_BYTES`, framebuffer bytes in a row (R5). -/
abbrev rowBytes : Nat := 8
/-- `NREGS` (R5, R10). -/
abbrev nRegs : Nat := 16
/-- `STACK_DEPTH` (R5, R16). -/
abbrev stackDepth : Nat := 16
/-- `GLYPH_BYTES` (R5). -/
abbrev glyphBytes : Nat := 5
/-- `FONT_SIZE` (R5). -/
abbrev fontSize : Nat := 80
/-- `WRAP_MODULUS`, the named constant that rule R114 asks for; 255 is not admitted. -/
abbrev wrapModulus : Nat := 256
/-- `NKEYS` (R5; log entry 6). -/
abbrev nKeys : Nat := 16

/-- `TICK_HZ` (R5, R187): the unit of `in.k` is 1/60 second. No rule of the core depends on it (log entry 16). -/
abbrev tickHz : Nat := 60

/-- The defaults of rule R5 (log entry 2). -/
def default : Config := { fontBase := 0x000#16, progBase := 0x200#16 }

/-- The constraints of rule R5 on the OPEN parameters. -/
abbrev wf (c : Config) : Prop :=
  c.fontBase.toNat + fontSize ≤ c.progBase.toNat ∧ c.progBase.toNat + 2 ≤ fbBase

end Config

/-- The input record `in` of one step (R8). -/
structure Input where
  /-- `in.k`: 1/60-second intervals elapsed since the previous timer evaluation. -/
  k : Nat
  /-- `in.rnd`: the random byte. -/
  rnd : Byte
  /-- `in.keys`: bit j is 1 when key j is pressed now. -/
  keys : BitVec 16
  /-- `in.key_event`: a key-press event arriving in this step. -/
  keyEvent : Option Key
  deriving DecidableEq, Repr, Inhabited

/-- The inputs of the vectors of spec/95_test_vectors.md: no time passes, no key. -/
def Input.quiet : Input := { k := 0, rnd := 0x00#8, keys := 0x0000#16, keyEvent := none }

/-- FREE VALUE (log entry 1): the input record of a step for which the state lists none. It has no body: R8, R113,
R161, R169 put no law on the inputs, and nothing about these can be proved but what holds for every input. -/
opaque Config.freeInput : Nat → Input

end Sys2Proof
end

