-- ==== Sys2Proof/Machine/Flags.lean ====
section
/-! DEFINITION. Wrap-around arithmetic and every flag of `VF`: carry, borrow, the bit shifted out, collision (R11, R112).
Results are computed over the integers and narrowed at the end (R7). -/

namespace Sys2Proof.Machine

open Sys2Proof

/-- A flag as `VF` holds it: exactly 0x00 or 0x01 (R100(c)). -/
def flagByte (c : Bool) : Byte := if c then 0x01#8 else 0x00#8

/-- A sum modulo `WRAP_MODULUS` (R102, R107, R114). -/
def wrapAdd (a b : Byte) : Byte := BitVec.ofNat 8 ((a.toNat + b.toNat) % Config.wrapModulus)

/-- Carry: the sum is above 255 (R107). -/
def carry (a b : Byte) : Bool := decide (a.toNat + b.toNat > 255)

/-- The difference over the integers (R108). -/
def diff (a b : Byte) : Int := (a.toNat : Int) - (b.toNat : Int)

/-- A difference modulo `WRAP_MODULUS` (R108, R114). -/
def wrapSub (a b : Byte) : Byte := BitVec.ofInt 8 (diff a b % (Config.wrapModulus : Int))

/-- Borrow: the difference is below 0 (R108); 1 means a borrow happened. -/
def borrow (a b : Byte) : Bool := decide (diff a b < 0)

/-- The bit a right shift loses: the least significant one before the shift (R109). -/
def lsb (a : Byte) : Bool := a.getLsbD 0

/-- A logical right shift by one (R109). -/
def halve (a : Byte) : Byte := a >>> 1

/-- The bit a left shift loses: the most significant one before the shift (R111). -/
def msb (a : Byte) : Bool := a.getLsbD 7

/-- A left shift by one modulo `WRAP_MODULUS` (R111, R114). -/
def double (a : Byte) : Byte := BitVec.ofNat 8 ((a.toNat * 2) % Config.wrapModulus)

/-- Collision: a set pixel of the screen byte meets a set pixel of the sprite (R135). -/
def collides (d b : Byte) : Bool := decide (d &&& b ≠ 0x00#8)

end Sys2Proof.Machine
end

