-- ==== Sys2Proof/Syntax.lean ====
section
/-! DEFINITION. The instructions: one constructor per row of spec/opcode_table.json, in the table's order, with the
operand fields of rule R52. -/

namespace Sys2Proof

/-- The 34 instructions of the dispatch table and the faulting form `0nnn` (R55 to R58). Two words that the machine
reads as different words are different terms: the ignored field `y` of the shifts is kept (R60). -/
inductive Instr where
  /-- `00E0` -/ | cls
  /-- `00EE` -/ | ret
  /-- `0nnn` -/ | sys (nnn : Addr12)
  /-- `1nnn` -/ | jp (nnn : Addr12)
  /-- `2nnn` -/ | call (nnn : Addr12)
  /-- `3xnn` -/ | seImm (x : Reg) (nn : Byte)
  /-- `4xnn` -/ | sneImm (x : Reg) (nn : Byte)
  /-- `5xy0` -/ | seReg (x y : Reg)
  /-- `6xnn` -/ | ldImm (x : Reg) (nn : Byte)
  /-- `7xnn` -/ | addImm (x : Reg) (nn : Byte)
  /-- `8xy0` -/ | ldReg (x y : Reg)
  /-- `8xy1` -/ | orReg (x y : Reg)
  /-- `8xy2` -/ | andReg (x y : Reg)
  /-- `8xy3` -/ | xorReg (x y : Reg)
  /-- `8xy4` -/ | addReg (x y : Reg)
  /-- `8xy5` -/ | sub (x y : Reg)
  /-- `8xy6` -/ | shr (x y : Reg)
  /-- `8xy7` -/ | subn (x y : Reg)
  /-- `8xyE` -/ | shl (x y : Reg)
  /-- `9xy0` -/ | sneReg (x y : Reg)
  /-- `Annn` -/ | ldI (nnn : Addr12)
  /-- `Bnnn` -/ | jpV0 (nnn : Addr12)
  /-- `Cxnn` -/ | rnd (x : Reg) (nn : Byte)
  /-- `Dxyn` -/ | drw (x y : Reg) (n : Nibble)
  /-- `Ex9E` -/ | skp (x : Reg)
  /-- `ExA1` -/ | sknp (x : Reg)
  /-- `Fx07` -/ | ldVxDt (x : Reg)
  /-- `Fx0A` -/ | ldVxK (x : Reg)
  /-- `Fx15` -/ | ldDtVx (x : Reg)
  /-- `Fx18` -/ | ldStVx (x : Reg)
  /-- `Fx1E` -/ | addIVx (x : Reg)
  /-- `Fx29` -/ | ldFVx (x : Reg)
  /-- `Fx33` -/ | ldBVx (x : Reg)
  /-- `Fx55` -/ | ldMemVx (x : Reg)
  /-- `Fx65` -/ | ldVxMem (x : Reg)
  deriving DecidableEq, Repr

end Sys2Proof
end

