-- ==== Sys2Proof/Decode.lean ====
section
/-! DEFINITION. The decoder, total on any bytes (R50 to R60), and after it the encoder, each written from the opcode
maps of spec/30_encoding.md. -/

namespace Sys2Proof

/-- The six fields of rule R51. -/
structure Fields where
  pfx : Nibble
  x : Reg
  y : Reg
  n : Nibble
  nn : Byte
  nnn : Addr12
  deriving DecidableEq, Repr

/-- What a word selects: an instruction, or none, which is an unknown opcode (R59). -/
inductive WordDecode where
  | instr (i : Instr)
  | unknownOpcode
  deriving DecidableEq, Repr

/-- What a run of bytes starts with. -/
inductive Decoded where
  /-- An instruction and the bytes after it. -/
  | instr (i : Instr) (rest : List Byte)
  /-- Fewer than the 2 bytes of an instruction (R50). The step never gives the decoder fewer. -/
  | truncated
  /-- A word of rule R59's list other than `0nnn`. -/
  | unknownOpcode
  deriving DecidableEq, Repr

/-- Fixed bit-masking (R51); it has no failure mode (R54). -/
def fieldsOf (op : Word) : Fields where
  pfx := op.extractLsb' 12 4
  x := op.extractLsb' 8 4
  y := op.extractLsb' 4 4
  n := op.extractLsb' 0 4
  nn := op.extractLsb' 0 8
  nnn := op.extractLsb' 0 12

/-- Prefix 0, keyed on the whole `nnn` (R58). -/
def decode0 (f : Fields) : WordDecode :=
  if f.nnn = 0x0E0#12 then .instr .cls
  else if f.nnn = 0x0EE#12 then .instr .ret
  else .instr (.sys f.nnn)

/-- Prefix 8, keyed on `n` (R56). -/
def decode8 (f : Fields) : WordDecode :=
  match f.n with
  | 0x0#4 => .instr (.ldReg f.x f.y)
  | 0x1#4 => .instr (.orReg f.x f.y)
  | 0x2#4 => .instr (.andReg f.x f.y)
  | 0x3#4 => .instr (.xorReg f.x f.y)
  | 0x4#4 => .instr (.addReg f.x f.y)
  | 0x5#4 => .instr (.sub f.x f.y)
  | 0x6#4 => .instr (.shr f.x f.y)
  | 0x7#4 => .instr (.subn f.x f.y)
  | 0xE#4 => .instr (.shl f.x f.y)
  | _ => .unknownOpcode

/-- Prefix E, keyed on `nn` (R57). -/
def decodeE (f : Fields) : WordDecode :=
  match f.nn with
  | 0x9E#8 => .instr (.skp f.x)
  | 0xA1#8 => .instr (.sknp f.x)
  | _ => .unknownOpcode

/-- Prefix F, keyed on `nn` (R57). -/
def decodeF (f : Fields) : WordDecode :=
  match f.nn with
  | 0x07#8 => .instr (.ldVxDt f.x)
  | 0x0A#8 => .instr (.ldVxK f.x)
  | 0x15#8 => .instr (.ldDtVx f.x)
  | 0x18#8 => .instr (.ldStVx f.x)
  | 0x1E#8 => .instr (.addIVx f.x)
  | 0x29#8 => .instr (.ldFVx f.x)
  | 0x33#8 => .instr (.ldBVx f.x)
  | 0x55#8 => .instr (.ldMemVx f.x)
  | 0x65#8 => .instr (.ldVxMem f.x)
  | _ => .unknownOpcode

/-- Prefixes 5 and 9 are keyed on `n`, which must be 0 (R55). -/
def whenZero (n : Nibble) (i : Instr) : WordDecode :=
  if n = 0x0#4 then .instr i else .unknownOpcode

/-- The first level of the opcode map (R55). -/
def selectInstr (f : Fields) : WordDecode :=
  match f.pfx with
  | 0x0#4 => decode0 f
  | 0x1#4 => .instr (.jp f.nnn)
  | 0x2#4 => .instr (.call f.nnn)
  | 0x3#4 => .instr (.seImm f.x f.nn)
  | 0x4#4 => .instr (.sneImm f.x f.nn)
  | 0x5#4 => whenZero f.n (.seReg f.x f.y)
  | 0x6#4 => .instr (.ldImm f.x f.nn)
  | 0x7#4 => .instr (.addImm f.x f.nn)
  | 0x8#4 => decode8 f
  | 0x9#4 => whenZero f.n (.sneReg f.x f.y)
  | 0xA#4 => .instr (.ldI f.nnn)
  | 0xB#4 => .instr (.jpV0 f.nnn)
  | 0xC#4 => .instr (.rnd f.x f.nn)
  | 0xD#4 => .instr (.drw f.x f.y f.n)
  | 0xE#4 => decodeE f
  | _ => decodeF f

/-- The instruction a 16-bit word selects. -/
def decodeWord (op : Word) : WordDecode := selectInstr (fieldsOf op)

/-- The opcode of two bytes, the byte at the lower address in bits 15:8 (R34, R50). -/
def opcodeOf (b0 b1 : Byte) : Word := b0 ++ b1

/-- The instruction a run of bytes starts with: the first two bytes, the high byte first (R34). -/
def decode : List Byte → Decoded
  | b0 :: b1 :: rest =>
    match decodeWord (opcodeOf b0 b1) with
    | .instr i => .instr i rest
    | .unknownOpcode => .unknownOpcode
  | _ => .truncated

/-- The word of an instruction (R52, R55 to R58). -/
def encodeWord : Instr → Word
  | .cls => 0x00E0#16
  | .ret => 0x00EE#16
  | .sys nnn => 0x0#4 ++ nnn
  | .jp nnn => 0x1#4 ++ nnn
  | .call nnn => 0x2#4 ++ nnn
  | .seImm x nn => 0x3#4 ++ x ++ nn
  | .sneImm x nn => 0x4#4 ++ x ++ nn
  | .seReg x y => 0x5#4 ++ x ++ y ++ 0x0#4
  | .ldImm x nn => 0x6#4 ++ x ++ nn
  | .addImm x nn => 0x7#4 ++ x ++ nn
  | .ldReg x y => 0x8#4 ++ x ++ y ++ 0x0#4
  | .orReg x y => 0x8#4 ++ x ++ y ++ 0x1#4
  | .andReg x y => 0x8#4 ++ x ++ y ++ 0x2#4
  | .xorReg x y => 0x8#4 ++ x ++ y ++ 0x3#4
  | .addReg x y => 0x8#4 ++ x ++ y ++ 0x4#4
  | .sub x y => 0x8#4 ++ x ++ y ++ 0x5#4
  | .shr x y => 0x8#4 ++ x ++ y ++ 0x6#4
  | .subn x y => 0x8#4 ++ x ++ y ++ 0x7#4
  | .shl x y => 0x8#4 ++ x ++ y ++ 0xE#4
  | .sneReg x y => 0x9#4 ++ x ++ y ++ 0x0#4
  | .ldI nnn => 0xA#4 ++ nnn
  | .jpV0 nnn => 0xB#4 ++ nnn
  | .rnd x nn => 0xC#4 ++ x ++ nn
  | .drw x y n => 0xD#4 ++ x ++ y ++ n
  | .skp x => 0xE#4 ++ x ++ 0x9E#8
  | .sknp x => 0xE#4 ++ x ++ 0xA1#8
  | .ldVxDt x => 0xF#4 ++ x ++ 0x07#8
  | .ldVxK x => 0xF#4 ++ x ++ 0x0A#8
  | .ldDtVx x => 0xF#4 ++ x ++ 0x15#8
  | .ldStVx x => 0xF#4 ++ x ++ 0x18#8
  | .addIVx x => 0xF#4 ++ x ++ 0x1E#8
  | .ldFVx x => 0xF#4 ++ x ++ 0x29#8
  | .ldBVx x => 0xF#4 ++ x ++ 0x33#8
  | .ldMemVx x => 0xF#4 ++ x ++ 0x55#8
  | .ldVxMem x => 0xF#4 ++ x ++ 0x65#8

/-- The byte of a word at the lower address (R34). -/
def hiByte (op : Word) : Byte := op.extractLsb' 8 8

/-- The byte of a word at the higher address (R34). -/
def loByte (op : Word) : Byte := op.extractLsb' 0 8

/-- An instruction's two bytes as memory holds them: the high byte first (R34, R62). -/
def encode (i : Instr) : List Byte := [hiByte (encodeWord i), loByte (encodeWord i)]

/-- The decoder's answer on a row of spec/opcode_table.json, whose bits are those of the opcode (bit 0 the least
significant of `op`). Every instruction has 16 bits (R50): a longer row, or a number with more bits, is none. -/
def decodeTableWord (nbits w : Nat) : Option Instr :=
  if nbits ≤ 16 ∧ w < 2 ^ nbits then
    match decode [hiByte (BitVec.ofNat 16 w), loByte (BitVec.ofNat 16 w)] with
    | .instr i _ => some i
    | .truncated => none
    | .unknownOpcode => none
  else none

end Sys2Proof
end

