-- ==== Sys2Proof/Machine/State.lean ====
section
/-! DEFINITION. The whole state of the core as plain data (spec/10_state.md), the environment's side of a step beside
it, and the state after reset. -/

namespace Sys2Proof.Machine

/-- The run state (R17). It is no privilege level: there is one (R170). -/
inductive Mode where
  /-- One execution cycle a step (R71). -/
  | run
  /-- Waiting for a key-press event (R77). -/
  | waitKey
  /-- Halted by a fatal condition; left by reset only (R78, R159). -/
  | halt
  deriving DecidableEq, Repr

/-- The five fatal conditions (R150), the machine's only exceptions. Their entry is described by rule R158, so raising
one is a NEXT state (`raise` in Machine/Ops.lean records the kind in `ERR` and enters `HALT`), and no step answers with
the fault outcome: safe, nothing is lost by it. `State.outcome` in Safety.lean reads a halted state as this fault. -/
inductive Fault where
  /-- Kind 1 (R151). Raised by the dispatch of a word with no row. Safe. -/
  | unknownOpcode
  /-- Kind 2, unimplementable-legacy-call (R152). Raised by `0nnn`. Safe. -/
  | legacyCall
  /-- Kind 3 (R153). Raised by `00EE` on an empty stack. Safe. -/
  | stackUnderflow
  /-- Kind 4 (R154). Raised by `2nnn` on a full stack. Safe. -/
  | stackOverflow
  /-- Kind 5, out-of-bounds-memory-access (R155). Raised by the fetch, `Dxyn`, `Fx33`, `Fx55`, `Fx65`. Safe. -/
  | outOfBounds
  deriving DecidableEq, Repr

/-- Why the model gives no meaning to what it was asked. -/
inductive Refusal where
  /-- Raised by an arm of `exec` for an instruction without a meaning yet. Safe. No arm is left that raises it. -/
  | notModelled (mnemonic : String)
  /-- Raised by `construct` (and by `assertReset`) for a font or a program that does not fit its load range: "A load
  that breaks the precondition is refused by the model" (R40). No step raises it. Safe. -/
  | loadOutOfBounds
  deriving DecidableEq, Repr

/-- `ERR`, the diagnostic record (R18), meaningful only in `HALT`. -/
structure ErrRecord where
  kind : Fault
  /-- The address the offending instruction was, or was to be, fetched from. -/
  pc : Word
  /-- The instruction word; absent for a fault of the fetch itself. -/
  op : Option Word
  deriving DecidableEq, Repr

/-- The output events (R8). -/
inductive Event where
  /-- The 256 framebuffer bytes (R136). -/
  | render (frame : List Byte)
  | audioStart
  | audioStop
  | fatal (kind : Fault) (pc : Word) (op : Option Word)
  deriving DecidableEq, Repr

/-- Memory (R19, R30) as its nonzero bytes: addresses strictly rising, no listed byte 0, and an unlisted byte reads 0,
the reset contents (R23). The functions on it and its canonical form `Memory.wf` are in Machine/Ops.lean. -/
abbrev Memory := List Host.Cell

/-- The core's state (R10 to R19) in its first twelve fields, its configuration (R5), and three fields of the
model's own that stand for the environment (R8, R165). -/
structure State where
  /-- `V[0]` to `V[15]` (R10). -/
  v : Vector Byte 16
  /-- The index register `I` (R12). -/
  i : Word
  /-- The program counter (R13). -/
  pc : Word
  /-- The delay timer (R14). -/
  dt : Byte
  /-- The sound timer (R15). -/
  st : Byte
  /-- The number of stack entries in use, 0 to 16 (R16). -/
  sp : Fin 17
  /-- `STK[0]` to `STK[15]` (R16). -/
  stk : Vector Word 16
  /-- `MODE` (R17). -/
  mode : Mode
  /-- `WX`, the register a key wait fills (R17). -/
  wx : Reg
  /-- `ERR` (R18). -/
  err : ErrRecord
  /-- Memory, the framebuffer in it (R19). -/
  mem : Memory
  /-- The OPEN parameters (R5); no step writes them. -/
  cfg : Config
  /-- The environment's coming input records, the next step's first (R8). The model's own field. -/
  inputs : List Input
  /-- How many steps took the free input, `inputs` being empty. The model's own field (log entry 1). -/
  freeUsed : Nat
  /-- The output trace, oldest event first (R165). The model's own field. -/
  out : List Event
  deriving DecidableEq, Repr

/-- The state after reset and before loading (R23, R176), for any values of the OPEN parameters. `STK`, `WX` and `ERR`
are unspecified there; they hold the values of log entry 3, and the environment's fields those of log entry 1. -/
def State.resetWith (c : Config) : State where
  v := Vector.replicate 16 0x00#8
  i := 0x0000#16
  pc := c.progBase
  dt := 0x00#8
  st := 0x00#8
  sp := 0
  stk := Vector.replicate 16 0x0000#16
  mode := .run
  wx := 0x0#4
  err := { kind := .unknownOpcode, pc := 0x0000#16, op := none }
  mem := []
  cfg := c
  inputs := []
  freeUsed := 0
  out := []

/-- The state after reset with the default parameters of rule R5. No font and no program is loaded: `construct` in
Machine/Construct.lean loads them (R177). -/
def State.reset : State := State.resetWith Config.default

end Sys2Proof.Machine
end

