-- ==== Sys2Proof/Machine/Ops.lean ====
section
/-! DEFINITION. The named operations over memory, registers, the stack, the environment's records, and taking a fault. -/

namespace Sys2Proof.Machine

open Sys2Proof

/-! ### Memory -/

/-- The byte at an address; an unlisted byte is 0 (R23). -/
def Memory.read : Memory → Nat → Byte
  | [], _ => 0x00#8
  | (b, w) :: m, a => if a = b then w else Memory.read m a

/-- A listed byte in front of a memory, left out when it is what an unlisted byte reads as. -/
def Memory.put (a : Nat) (x : Byte) (m : Memory) : Memory := if x = 0x00#8 then m else (a, x) :: m

/-- The memory with one byte replaced; it keeps the canonical form. -/
def Memory.write : Memory → Nat → Byte → Memory
  | [], a, x => Memory.put a x []
  | (b, w) :: m, a, x =>
    if a < b then Memory.put a x ((b, w) :: m)
    else if a = b then Memory.put a x m
    else (b, w) :: Memory.write m a x

/-- The canonical form from an address on: rising addresses inside Memory (R30), no listed byte 0. -/
def Memory.wfFrom : Nat → Memory → Bool
  | _, [] => true
  | lo, (a, x) :: m => decide (lo ≤ a) && decide (a < Config.memSize) && decide (x ≠ 0x00#8) && Memory.wfFrom (a + 1) m

/-- The canonical form. -/
def Memory.wf (m : Memory) : Bool := Memory.wfFrom 0 m

/-- The model's read of one byte, for statements and for addresses known to be in bounds (R132). -/
def State.byteAt (s : State) (a : Nat) : Byte := Memory.read s.mem a

/-- The model's write of one byte at an address known to be in bounds (R132). -/
def State.setByte (s : State) (a : Nat) (x : Byte) : State := { s with mem := Memory.write s.mem a x }

/-- `MemRead(addr, 1)`: none where it raises `Fatal(OOB)` (R7, R38). -/
def memRead (a : Nat) (s : State) : Option Byte := if a < Config.memSize then some (s.byteAt a) else none

/-- `MemWrite(addr, 1, x)`: none where it raises `Fatal(OOB)` (R7, R38). -/
def memWrite (a : Nat) (x : Byte) (s : State) : Option State :=
  if a < Config.memSize then some (s.setByte a x) else none

/-- Stores bytes at ascending addresses (R120). The answer is `.error` with what was stored so far when an address is
out of bounds: "no partial-state rollback". -/
def storeRun : List Byte → Nat → State → Except State State
  | [], _, s => .ok s
  | x :: xs, a, s =>
    match memWrite a x s with
    | some t => storeRun xs (a + 1) t
    | none => .error s

/-- The 256 bytes of the framebuffer, a view of Memory and no second store (R32, R136). -/
def framebuffer (m : Memory) : List Byte :=
  (List.range Config.fbSize).map fun j => Memory.read m (Config.fbBase + j)

/-- The pixel at column `px` and row `py`: bit `7 - (px mod 8)` of its byte, set when 1 (R33). -/
def State.pixel (s : State) (px py : Nat) : Bool :=
  (s.byteAt (Config.fbBase + Config.rowBytes * py + px / 8)).getLsbD (7 - px % 8)

/-! ### Registers -/

/-- `V[x]` (R10). -/
def State.reg (s : State) (x : Reg) : Byte := s.v[x.toNat]'x.isLt

/-- `V[x] <- b` (R10). -/
def State.setReg (s : State) (x : Reg) (b : Byte) : State := { s with v := s.v.set x.toNat b x.isLt }

/-- Loads registers from ascending addresses (R120, R126); `.error` with what was loaded so far when an address is out of
bounds. -/
def loadRun : List Reg → Nat → State → Except State State
  | [], _, s => .ok s
  | r :: rs, a, s =>
    match memRead a s with
    | some b => loadRun rs (a + 1) (s.setReg r b)
    | none => .error s

/-- `PC <- w`. -/
def State.setPc (s : State) (w : Word) : State := { s with pc := w }

/-- `I <- w`. -/
def State.setI (s : State) (w : Word) : State := { s with i := w }

/-- The advance after the fetch, "for every instruction" (R73). -/
def advance (s : State) : State := s.setPc (s.pc + 2)

/-- Skip: one extra instruction width (R95). -/
def skipIf (c : Bool) (s : State) : State := if c then s.setPc (s.pc + 2) else s

/-! ### The call stack -/

/-- `STK[j]`. -/
def State.stkAt (s : State) (j : Nat) (h : j < 16) : Word := s.stk[j]

/-- Push (R16); none where `2nnn` raises stack-overflow. -/
def push (w : Word) (s : State) : Option State :=
  if h : s.sp.val < Config.stackDepth then
    some { s with stk := s.stk.set s.sp.val w h, sp := ⟨s.sp.val + 1, Nat.succ_lt_succ h⟩ }
  else none

/-- Pop (R16): the popped value and the state after; none where `00EE` raises stack-underflow. The entry is not
erased (R86). -/
def pop (s : State) : Option (Word × State) :=
  if h : s.sp.val = 0 then none
  else
    some (s.stk[s.sp.val - 1]'(by have := s.sp.isLt; omega),
      { s with sp := ⟨s.sp.val - 1, by have := s.sp.isLt; omega⟩ })

/-! ### The environment's records -/

/-- The input record `in` of the step about to be taken: the first listed one, or a free one (R8; log entry 1). -/
def nextInput (s : State) : Input :=
  match s.inputs with
  | inp :: _ => inp
  | [] => Config.freeInput s.freeUsed

/-- The step's input record is used up. -/
def popInput (s : State) : State :=
  match s.inputs with
  | _ :: rest => { s with inputs := rest }
  | [] => { s with freeUsed := s.freeUsed + 1 }

/-- `emit e` (R7, R165). -/
def emit (e : Event) (s : State) : State := { s with out := s.out ++ [e] }

/-! ### Taking a fault -/

/-- The cause code of a kind (R156). -/
def Fault.code : Fault → Nat
  | .unknownOpcode => 1
  | .legacyCall => 2
  | .stackUnderflow => 3
  | .stackOverflow => 4
  | .outOfBounds => 5

/-- `raise Fatal(kind)` for the instruction word `op` of address `a` (R158): `ERR` is written, the mode is `HALT`, the
`fatal` event is emitted, and everything the step wrote before stays. There is no handler and no return from it
(R159): `HALT` is left by `assertReset` alone. -/
def raise (kind : Fault) (a : Word) (op : Option Word) (s : State) : State :=
  emit (.fatal kind a op) { s with err := { kind := kind, pc := a, op := op }, mode := .halt }

/-- The fault of the instruction being executed: `PC` holds the address after it (R76), and its word is its encoding,
which is the fetched one (R71). -/
def raiseBy (i : Instr) (kind : Fault) (s : State) : State := raise kind (s.pc - 2) (some (encodeWord i)) s

/-- The end of an instruction whose memory accesses either all happened or stopped at an address out of bounds (R120). -/
def endAccess (i : Instr) : Except State State → Host.Outcome State Fault Refusal
  | .ok t => .next t
  | .error t => .next (raiseBy i .outOfBounds t)

end Sys2Proof.Machine
end

