-- ==== Sys2Proof/Machine/Operands.lean ====
section
/-! DEFINITION. The operand forms: immediates and their widths (R53), the register lists and addresses of the memory
instructions (R120), jump targets, the values of `I`, and the key operand (R144). -/

namespace Sys2Proof.Machine

open Sys2Proof

/-- `nnn` as a byte address, zero-extended (R53). -/
def addrOf (nnn : Addr12) : Word := nnn.setWidth 16

/-- `zext_16` of a byte (R7). -/
def zext16 (b : Byte) : Word := b.setWidth 16

/-- `zext_8` of a key number (R147). -/
def keyByte (k : Key) : Byte := k.setWidth 8

/-- The target of `Bnnn`: nnn plus `V0`, kept in full (R93). -/
def indexedTarget (nnn : Addr12) (s : State) : Word := addrOf nnn + zext16 (s.reg Reg.v0)

/-- The effective address `I + 0`, over the integers (R120); the offset is added by the access. -/
def effBase (s : State) : Nat := s.i.toNat

/-- `V0` to `V[x]`, `V0` and `V[x]` included (R125). -/
def regsTo (x : Reg) : List Reg := (List.range (x.toNat + 1)).map (BitVec.ofNat 4)

/-- The sum of `Fx1E`, modulo 4096 (R122). -/
def indexSum (i : Word) (a : Byte) : Word := BitVec.ofNat 16 ((i.toNat + a.toNat) % Config.memSize)

/-- The address of `Fx29`: all 8 bits of the register count (R123). -/
def glyphAddr (fontBase : Word) (a : Byte) : Word := fontBase + zext16 a * BitVec.ofNat 16 Config.glyphBytes

/-- The hundreds, tens and units of a byte, each a whole byte (R124). -/
def bcdDigits (a : Byte) : List Byte :=
  [BitVec.ofNat 8 (a.toNat / 100), BitVec.ofNat 8 (a.toNat / 10 % 10), BitVec.ofNat 8 (a.toNat % 10)]

/-- Whether a register names a key and that key is pressed: a number above 15 names none (R144). -/
def keyDown (keys : BitVec 16) (b : Byte) : Bool := decide (b.toNat < Config.nKeys) && keys.getLsbD b.toNat

end Sys2Proof.Machine
end

