-- ==== Sys2Proof/Machine/Alu.lean ====
section
/-! DEFINITION. Register load, arithmetic, logic, shift, random (spec/42_alu.md). Operands are read before anything is
written, and where both the result and the flag go to `VF` the later write of rule R100(b)'s order stays (log entry 5). -/

namespace Sys2Proof.Machine

open Sys2Proof

/-- The result first, the flag second: the order of `8xy4`, `8xy5`, `8xy7` (R100(b)). -/
def resultThenFlag (x : Reg) (r : Byte) (f : Bool) (s : State) : State := (s.setReg x r).setReg Reg.vf (flagByte f)

/-- The flag first, the result second: the order of `8xy6`, `8xyE` (R100(b)). -/
def flagThenResult (x : Reg) (r : Byte) (f : Bool) (s : State) : State := (s.setReg Reg.vf (flagByte f)).setReg x r

/-- `6xnn` (R101). -/
def execLdImm (x : Reg) (nn : Byte) (s : State) : Host.Outcome State Fault Refusal := .next (s.setReg x nn)

/-- `7xnn` (R102): no carry out. -/
def execAddImm (x : Reg) (nn : Byte) (s : State) : Host.Outcome State Fault Refusal :=
  .next (s.setReg x (wrapAdd (s.reg x) nn))

/-- `8xy0` (R103). -/
def execLdReg (x y : Reg) (s : State) : Host.Outcome State Fault Refusal := .next (s.setReg x (s.reg y))

/-- `8xy1` (R104). -/
def execOrReg (x y : Reg) (s : State) : Host.Outcome State Fault Refusal := .next (s.setReg x (s.reg x ||| s.reg y))

/-- `8xy2` (R105). -/
def execAndReg (x y : Reg) (s : State) : Host.Outcome State Fault Refusal := .next (s.setReg x (s.reg x &&& s.reg y))

/-- `8xy3` (R106). -/
def execXorReg (x y : Reg) (s : State) : Host.Outcome State Fault Refusal := .next (s.setReg x (s.reg x ^^^ s.reg y))

/-- `8xy4` (R107). -/
def execAddReg (x y : Reg) (s : State) : Host.Outcome State Fault Refusal :=
  .next (resultThenFlag x (wrapAdd (s.reg x) (s.reg y)) (carry (s.reg x) (s.reg y)) s)

/-- `8xy5` (R108). -/
def execSub (x y : Reg) (s : State) : Host.Outcome State Fault Refusal :=
  .next (resultThenFlag x (wrapSub (s.reg x) (s.reg y)) (borrow (s.reg x) (s.reg y)) s)

/-- `8xy6` (R109): the field `y` is ignored (R60). -/
def execShr (x _y : Reg) (s : State) : Host.Outcome State Fault Refusal :=
  .next (flagThenResult x (halve (s.reg x)) (lsb (s.reg x)) s)

/-- `8xy7` (R110). -/
def execSubn (x y : Reg) (s : State) : Host.Outcome State Fault Refusal :=
  .next (resultThenFlag x (wrapSub (s.reg y) (s.reg x)) (borrow (s.reg y) (s.reg x)) s)

/-- `8xyE` (R111): the field `y` is ignored (R60). -/
def execShl (x _y : Reg) (s : State) : Host.Outcome State Fault Refusal :=
  .next (flagThenResult x (double (s.reg x)) (msb (s.reg x)) s)

/-- `Cxnn` (R113): the random byte is the step's input. -/
def execRnd (x : Reg) (nn : Byte) (s : State) : Host.Outcome State Fault Refusal :=
  .next (s.setReg x (nn &&& (nextInput s).rnd))

end Sys2Proof.Machine
end

