-- ==== Sys2Proof/Machine/Control.lean ====
section
/-! DEFINITION. Control transfer (spec/41_control_flow.md). In every meaning `PC` already holds the address of the next
instruction (R76). -/

namespace Sys2Proof.Machine

open Sys2Proof

/-- `00EE` (R86). -/
def execRet (s : State) : Host.Outcome State Fault Refusal :=
  match pop s with
  | some (w, t) => .next (t.setPc w)
  | none => .next (raiseBy .ret .stackUnderflow s)

/-- `0nnn` (R94): always unimplementable-legacy-call. -/
def execSys (nnn : Addr12) (s : State) : Host.Outcome State Fault Refusal :=
  .next (raiseBy (.sys nnn) .legacyCall s)

/-- `1nnn` (R87). -/
def execJp (nnn : Addr12) (s : State) : Host.Outcome State Fault Refusal := .next (s.setPc (addrOf nnn))

/-- `2nnn` (R88): the value pushed is the advanced `PC`. -/
def execCall (nnn : Addr12) (s : State) : Host.Outcome State Fault Refusal :=
  match push s.pc s with
  | some t => .next (t.setPc (addrOf nnn))
  | none => .next (raiseBy (.call nnn) .stackOverflow s)

/-- `3xnn` (R89). -/
def execSeImm (x : Reg) (nn : Byte) (s : State) : Host.Outcome State Fault Refusal :=
  .next (skipIf (decide (s.reg x = nn)) s)

/-- `4xnn` (R90). -/
def execSneImm (x : Reg) (nn : Byte) (s : State) : Host.Outcome State Fault Refusal :=
  .next (skipIf (decide (s.reg x ≠ nn)) s)

/-- `5xy0` (R91). -/
def execSeReg (x y : Reg) (s : State) : Host.Outcome State Fault Refusal :=
  .next (skipIf (decide (s.reg x = s.reg y)) s)

/-- `9xy0` (R92). -/
def execSneReg (x y : Reg) (s : State) : Host.Outcome State Fault Refusal :=
  .next (skipIf (decide (s.reg x ≠ s.reg y)) s)

/-- `Bnnn` (R93): the register is always `V0`. -/
def execJpV0 (nnn : Addr12) (s : State) : Host.Outcome State Fault Refusal := .next (s.setPc (indexedTarget nnn s))

end Sys2Proof.Machine
end

