-- ==== Sys2Proof/Machine/Display.lean ====
section
/-! DEFINITION. The display: clear screen and the sprite writer (spec/44_display.md), both on the framebuffer bytes of
Memory and on nothing else (R130). -/

namespace Sys2Proof.Machine

open Sys2Proof

/-- `00E0` (R131): no `render` event. -/
def execCls (s : State) : Host.Outcome State Fault Refusal :=
  endAccess .cls (storeRun (List.replicate Config.fbSize 0x00#8) Config.fbBase s)

/-- One screen byte: tested against the sprite bits landing on it, then XORed with them (R133). -/
def blitByte (a : Nat) (b : Byte) (s : State) : State × Bool :=
  (s.setByte a (s.byteAt a ^^^ b), collides (s.byteAt a) b)

/-- The address of the first destination byte of screen row `py` (R132). -/
def rowAddr (col py : Nat) : Nat := Config.fbBase + Config.rowBytes * py + col

/-- The sprite bits that land in the first destination byte (R132). -/
def hiPart (sh : Nat) (b : Byte) : Byte := b >>> sh

/-- The sprite bits that land in the next destination byte (R132). -/
def loPart (sh : Nat) (b : Byte) : Byte := b <<< (8 - sh)

/-- One sprite row `b` on screen row `py`, at byte column `col` and bit offset `sh`: the next byte takes part only
when it belongs to the same row (R133, R134). -/
def blitRow (col sh py : Nat) (b : Byte) (s : State) : State × Bool :=
  let first := blitByte (rowAddr col py) (hiPart sh b) s
  if sh ≠ 0 ∧ col < 7 then
    let second := blitByte (rowAddr col py + 1) (loPart sh b) first.1
    (second.1, first.2 || second.2)
  else first

/-- `todo` sprite rows from row `r` on, in ascending order; a row below the screen is skipped and its byte is not read
(R133, R134). `.error` holds the rows drawn before an address out of bounds. -/
def drawRows (col sh py0 base : Nat) : Nat → Nat → Bool → State → Except State (State × Bool)
  | 0, _, hit, s => .ok (s, hit)
  | todo + 1, r, hit, s =>
    if py0 + r < Config.screenH then
      match memRead (base + r) s with
      | some b =>
        let row := blitRow col sh (py0 + r) b s
        drawRows col sh py0 base todo (r + 1) (hit || row.2) row.1
      | none => .error s
    else drawRows col sh py0 base todo (r + 1) hit s

/-- The column of the sprite's left edge (R133). -/
def startColumn (x : Reg) (s : State) : Nat := (s.reg x).toNat % Config.screenW

/-- The screen row of the sprite's top edge (R133). -/
def startRow (y : Reg) (s : State) : Nat := (s.reg y).toNat % Config.screenH

/-- The end of a sprite that was drawn: `VF` is written once, then the frame is rendered (R133, R136). -/
def endDraw (hit : Bool) (s : State) : State :=
  let t := s.setReg Reg.vf (flagByte hit)
  emit (.render (framebuffer t.mem)) t

/-- `Dxyn` (R133). -/
def execDrw (x y : Reg) (n : Nibble) (s : State) : Host.Outcome State Fault Refusal :=
  match drawRows (startColumn x s / 8) (startColumn x s % 8) (startRow y s) (effBase s) n.toNat 0 false s with
  | .ok (t, hit) => .next (endDraw hit t)
  | .error t => .next (raiseBy (.drw x y n) .outOfBounds t)

end Sys2Proof.Machine
end

