-- ==== Sys2Proof/Machine/IndexMemory.lean ====
section
/-! DEFINITION. The index register and memory transfer (spec/43_index_memory.md). `I` is modified by no memory access. -/

namespace Sys2Proof.Machine

open Sys2Proof

/-- `Annn` (R121). -/
def execLdI (nnn : Addr12) (s : State) : Host.Outcome State Fault Refusal := .next (s.setI (addrOf nnn))

/-- `Fx1E` (R122). -/
def execAddIVx (x : Reg) (s : State) : Host.Outcome State Fault Refusal := .next (s.setI (indexSum s.i (s.reg x)))

/-- `Fx29` (R123). -/
def execLdFVx (x : Reg) (s : State) : Host.Outcome State Fault Refusal :=
  .next (s.setI (glyphAddr s.cfg.fontBase (s.reg x)))

/-- `Fx33` (R124). -/
def execLdBVx (x : Reg) (s : State) : Host.Outcome State Fault Refusal :=
  endAccess (.ldBVx x) (storeRun (bcdDigits (s.reg x)) (effBase s) s)

/-- `Fx55` (R125). -/
def execLdMemVx (x : Reg) (s : State) : Host.Outcome State Fault Refusal :=
  endAccess (.ldMemVx x) (storeRun ((regsTo x).map s.reg) (effBase s) s)

/-- `Fx65` (R126). -/
def execLdVxMem (x : Reg) (s : State) : Host.Outcome State Fault Refusal :=
  endAccess (.ldVxMem x) (loadRun (regsTo x) (effBase s) s)

end Sys2Proof.Machine
end

