-- ==== Sys2Proof/Machine/TimersKeys.lean ====
section
/-! DEFINITION. Timer access and the key instructions (spec/45_timers_keys.md). None of them can fault. -/

namespace Sys2Proof.Machine

open Sys2Proof

/-- `Fx07` (R141). -/
def execLdVxDt (x : Reg) (s : State) : Host.Outcome State Fault Refusal := .next (s.setReg x s.dt)

/-- `Fx15` (R142). -/
def execLdDtVx (x : Reg) (s : State) : Host.Outcome State Fault Refusal := .next { s with dt := s.reg x }

/-- The audio event of a write to the sound timer: start for a nonzero value, stop for 0 over a nonzero one (R143). -/
def audioOf (old new : Byte) (s : State) : State :=
  if new ≠ 0x00#8 then emit .audioStart s
  else if old ≠ 0x00#8 then emit .audioStop s
  else s

/-- `Fx18` (R143). -/
def execLdStVx (x : Reg) (s : State) : Host.Outcome State Fault Refusal :=
  .next (audioOf s.st (s.reg x) { s with st := s.reg x })

/-- `Ex9E` (R144). -/
def execSkp (x : Reg) (s : State) : Host.Outcome State Fault Refusal :=
  .next (skipIf (keyDown (nextInput s).keys (s.reg x)) s)

/-- `ExA1` (R145). -/
def execSknp (x : Reg) (s : State) : Host.Outcome State Fault Refusal :=
  .next (skipIf (!keyDown (nextInput s).keys (s.reg x)) s)

/-- `Fx0A` (R146): the wait is entered; the wake-up writes `V[x]` (R147). -/
def execLdVxK (x : Reg) (s : State) : Host.Outcome State Fault Refusal := .next { s with wx := x, mode := .waitKey }

end Sys2Proof.Machine
end

