-- ==== Sys2Proof/Machine/Timers.lean ====
section
/-! DEFINITION. The timer subsystem (R161, R162), which every RUN and WAIT_KEY step evaluates once. -/

namespace Sys2Proof.Machine

open Sys2Proof

/-- `t - min(t, k)` (R161). The first branch is no rule of its own: it lets a timer at 0 be computed whatever `k` is. -/
def countdown (t : Byte) (k : Nat) : Byte :=
  if t = 0x00#8 then 0x00#8 else BitVec.ofNat 8 (t.toNat - min t.toNat k)

/-- Both timers fall by the same `k`, and `audio_stop` is emitted when the sound timer reaches 0 (R161). -/
def timerEval (k : Nat) (s : State) : State :=
  let t := { s with dt := countdown s.dt k, st := countdown s.st k }
  if s.st ≠ 0x00#8 ∧ t.st = 0x00#8 then emit .audioStop t else t

end Sys2Proof.Machine
end

