-- ==== Sys2Proof/Machine/Cycle.lean ====
section
/-! DEFINITION. The three kinds of step (spec/40_cycle.md): the execution cycle, the wait for a key, the halt. -/

namespace Sys2Proof.Machine

open Sys2Proof

/-- The fetch (R72): both bytes must be inside Memory; none where it raises out-of-bounds-memory-access. -/
def fetch (s : State) : Option (List Byte) :=
  match memRead s.pc.toNat s, memRead (s.pc.toNat + 1) s with
  | some b0, some b1 => some [b0, b1]
  | _, _ => none

/-- The fetched bytes as the opcode (R34). -/
def opcodeIn : List Byte → Word
  | b0 :: b1 :: _ => opcodeOf b0 b1
  | _ => 0x0000#16

/-- The end of an executed step: its input record is used up. -/
def endStep : Host.Outcome State Fault Refusal → Host.Outcome State Fault Refusal
  | .next t => .next (popInput t)
  | .fault f => .fault f
  | .refused r => .refused r

/-- Phases 2 and 3 of the cycle: the advance, then the timers (R73, R74). -/
def beforeDispatch (s : State) : State := timerEval (nextInput s).k (advance s)

/-- Phase 4: decode and dispatch (R75). A word that selects no instruction is an unknown opcode (R151). -/
def dispatch (a : Word) (bytes : List Byte) (s : State) : Host.Outcome State Fault Refusal :=
  match decode bytes with
  | .instr i _ => exec i s
  | .unknownOpcode => .next (raise .unknownOpcode a (some (opcodeIn bytes)) s)
  | .truncated => .next (raise .unknownOpcode a (some (opcodeIn bytes)) s)

/-- The RUN cycle (R71). A fetch out of bounds halts before the advance and the timers, and `ERR.op` is absent (R72). -/
def runCycle (s : State) : Host.Outcome State Fault Refusal :=
  match fetch s with
  | none => .next (popInput (raise .outOfBounds s.pc none s))
  | some bytes => endStep (dispatch s.pc bytes (beforeDispatch s))

/-- The wake-up (R147): a key-press event writes the waiting register and ends the wait. -/
def wakeUp (event : Option Key) (s : State) : State :=
  match event with
  | some k => { s.setReg s.wx (keyByte k) with mode := .run }
  | none => s

/-- The WAIT_KEY step (R77): the timers, then the key. -/
def waitStep (s : State) : Host.Outcome State Fault Refusal :=
  .next (popInput (wakeUp (nextInput s).keyEvent (timerEval (nextInput s).k s)))

/-- The HALT step changes nothing and takes no input (R78). -/
def haltStep (s : State) : Host.Outcome State Fault Refusal := .next s

/-- One step, selected by `MODE` (R70). -/
def stepByMode (s : State) : Host.Outcome State Fault Refusal :=
  match s.mode with
  | .run => runCycle s
  | .waitKey => waitStep s
  | .halt => haltStep s

/-- Where the next instruction can be fetched from: `PC`, or the default `PROG_BASE` where `PC` is out of bounds. -/
def fetchAddr (s : State) : Word := if s.pc.toNat + 1 < Config.memSize then s.pc else Config.default.progBase

/-- A word placed where the next step fetches it, in a machine that runs (log entry 7). -/
def placeWord (s : State) (op : Word) : State :=
  let a := fetchAddr s
  { s with
    mode := .run
    pc := a
    mem := Memory.write (Memory.write s.mem a.toNat (hiByte op)) (a.toNat + 1) (loByte op) }

end Sys2Proof.Machine
end

