-- ==== Sys2Proof/Machine/Step.lean ====
section
/-! DEFINITION. The step function of the core (R70), and the state whose next step runs a given word. -/

namespace Sys2Proof.Machine

open Sys2Proof

/-- One step of the core. -/
def step (s : State) : Host.Outcome State Fault Refusal := stepByMode s

/-- `s` with the instruction whose bits are `w` where `step` fetches its next instruction. Every instruction has 16
bits (R50), so the bits of `w` from 16 on, and a row's length `nbits`, say nothing more. -/
def State.withFetchWord (s : State) (_nbits w : Nat) : State := placeWord s (BitVec.ofNat 16 w)

end Sys2Proof.Machine
end

