-- ==== Sys2Proof/Machine/Construct.lean ====
section
/-! DEFINITION. Machine construction: reset and loading (R40, R175 to R178). It is no step of the core; the caller does
it. -/

namespace Sys2Proof.Machine

open Sys2Proof

/-- Bytes copied to ascending addresses. -/
def loadBytes : List Byte → Nat → Memory → Memory
  | [], _, m => m
  | b :: bs, a, m => loadBytes bs (a + 1) (Memory.write m a b)

/-- `load(bytes, a)` with its precondition (R40): none where the range leaves Memory. -/
def load (bytes : List Byte) (a : Nat) (m : Memory) : Option Memory :=
  if a + bytes.length ≤ Config.memSize then some (loadBytes bytes a m) else none

/-- Construction from a font and a program: reset (R176), the font, then the program, whose bytes stay where the two
overlap (R177). -/
def constructWith (c : Config) (font program : List Byte) : Host.Outcome State Fault Refusal :=
  match load font c.fontBase.toNat (State.resetWith c).mem with
  | none => .refused .loadOutOfBounds
  | some m =>
    match load program c.progBase.toNat m with
    | none => .refused .loadOutOfBounds
    | some m' => .next { State.resetWith c with mem := m' }

/-- The customary font, a `FONT_BLOB` a caller can load: glyph g at offset 5g. From general knowledge (G3, log entry 8);
nothing in the core depends on it (R6). -/
def customaryFont : List Byte :=
  [0xF0#8, 0x90#8, 0x90#8, 0x90#8, 0xF0#8, 0x20#8, 0x60#8, 0x20#8, 0x20#8, 0x70#8] ++
  [0xF0#8, 0x10#8, 0xF0#8, 0x80#8, 0xF0#8, 0xF0#8, 0x10#8, 0xF0#8, 0x10#8, 0xF0#8] ++
  [0x90#8, 0x90#8, 0xF0#8, 0x10#8, 0x10#8, 0xF0#8, 0x80#8, 0xF0#8, 0x10#8, 0xF0#8] ++
  [0xF0#8, 0x80#8, 0xF0#8, 0x90#8, 0xF0#8, 0xF0#8, 0x10#8, 0x20#8, 0x40#8, 0x40#8] ++
  [0xF0#8, 0x90#8, 0xF0#8, 0x90#8, 0xF0#8, 0xF0#8, 0x90#8, 0xF0#8, 0x10#8, 0xF0#8] ++
  [0xF0#8, 0x90#8, 0xF0#8, 0x90#8, 0x90#8, 0xE0#8, 0x90#8, 0xE0#8, 0x90#8, 0xE0#8] ++
  [0xF0#8, 0x80#8, 0x80#8, 0x80#8, 0xF0#8, 0xE0#8, 0x90#8, 0x90#8, 0x90#8, 0xE0#8] ++
  [0xF0#8, 0x80#8, 0xF0#8, 0x80#8, 0xF0#8, 0xF0#8, 0x80#8, 0xF0#8, 0x80#8, 0x80#8]

/-- Construction with the default parameters. -/
def construct (font program : List Byte) : Host.Outcome State Fault Refusal :=
  constructWith Config.default font program

/-- Reset asserted at any time, in any mode (R175): construction again, nothing of the core survives. The environment's
own fields, which are no part of the core, go on (log entry 4). -/
def assertReset (font program : List Byte) (s : State) : Host.Outcome State Fault Refusal :=
  match constructWith s.cfg font program with
  | .next t => .next { t with inputs := s.inputs, freeUsed := s.freeUsed, out := s.out }
  | .fault f => .fault f
  | .refused r => .refused r

end Sys2Proof.Machine
end

