-- ==== Sys2Proof/Safety.lean ====
section
/-! DEFINITION. What counts as a safe state, a failed run and a finished one, and the invariants of the reachable states. -/

namespace Sys2Proof.Machine

open Sys2Proof

/-- A halted run is a failed run, never a finished one (R78, R160). -/
abbrev State.failed (s : State) : Prop := s.mode = .halt

/-- A state read as an outcome: `HALT` is the fault that `ERR` records (R78, R160). -/
def State.outcome (s : State) : Host.Outcome State Fault Refusal :=
  if s.mode = .halt then .fault s.err.kind else .next s

/-- The suggested end of a program (R79): running, and the instruction at `PC` jumps to itself. -/
def State.atSelfJump (s : State) : Prop :=
  s.mode = .run ∧ ∃ nnn : Addr12, addrOf nnn = s.pc ∧
    fetch s = some [hiByte (encodeWord (.jp nnn)), loByte (encodeWord (.jp nnn))]

/-- The bounds of rule R25 with the two facts that make them inductive (the parameters meet rule R5's constraints, and
a stack entry in use is the address after a call), and the canonical form of Memory. -/
structure State.Inv (s : State) : Prop where
  mem : Memory.wf s.mem = true
  cfg : s.cfg.wf
  index : s.i.toNat ≤ max 0xFFF (s.cfg.fontBase.toNat + 1275)
  pc : s.pc.toNat ≤ 0x10FE
  stack : ∀ (j : Nat) (h : j < 16), j < s.sp.val → (s.stkAt j h).toNat ≤ 0x1000

/-- Whether an environment that starts on `audio_start` and stops on `audio_stop` is playing after a trace (R163). -/
def playing (out : List Event) : Bool :=
  out.foldl (fun on e => match e with
    | .audioStart => true
    | .audioStop => false
    | .render _ => on
    | .fatal _ _ _ => on) false

/-- Audio is playing iff the sound timer is above 0 (R163). -/
abbrev State.AudioInSync (s : State) : Prop := playing s.out = decide (s.st ≠ 0x00#8)

/-- Whether an event is the diagnostic of a fault (R168). -/
def Event.isFatal : Event → Bool
  | .fatal _ _ _ => true
  | .render _ => false
  | .audioStart => false
  | .audioStop => false

/-- The diagnostic is in the trace exactly when the core is halted: once, as its last event, and equal to `ERR` (R168). -/
def State.FatalIsLast (s : State) : Prop :=
  if s.mode = .halt then
    ∃ before, s.out = before ++ [.fatal s.err.kind s.err.pc s.err.op] ∧ before.all (fun e => !e.isFatal) = true
  else s.out.all (fun e => !e.isFatal) = true

/-- `n` steps from a state meet no fatal condition: the premise a claim about a program takes or proves (R160). -/
def State.safeFor : Nat → State → Prop
  | 0, s => ¬ s.failed
  | n + 1, s => ¬ s.failed ∧ ∃ t, stepByMode s = .next t ∧ State.safeFor n t

end Sys2Proof.Machine
end

