-- ==== Sys2Proof/Certificates/Slice0/Obligations.lean ====
section
/-! DEFINITION. The statements about the core, file by file of spec/. In a statement about `exec` the state is the one
the instruction sees at dispatch: `PC` already holds the address of the following instruction (R76). A statement that
says what a byte of Memory holds after a write takes the canonical form of Memory as its premise, an invariant that
`StepKeepsInvariants` states. -/

open Sys2Proof Sys2Proof.Machine

namespace Sys2Proof.Claims

/-- The word and the instruction stand for each other. -/
def Encodes (op : Word) (i : Instr) : Prop := decodeWord op = .instr i ∧ encodeWord i = op

/-- Only the register file may differ. -/
def OnlyV (s t : State) : Prop := t = { s with v := t.v } ∧ ∀ a, t.byteAt a = s.byteAt a

/-- Only the program counter may differ. -/
def OnlyPc (s t : State) : Prop := t = { s with pc := t.pc } ∧ ∀ a, t.byteAt a = s.byteAt a

/-- Only the index register may differ. -/
def OnlyI (s t : State) : Prop := t = { s with i := t.i } ∧ ∀ a, t.byteAt a = s.byteAt a

/-- Only Memory may differ; the statement beside it says at which bytes. -/
def OnlyMem (s t : State) : Prop := t = { s with mem := t.mem }

/-- Every register but one reads as before. -/
def OthersSame (x : Reg) (s t : State) : Prop := ∀ r, r ≠ x → t.reg r = s.reg r

/-- Every register but two reads as before. -/
def OthersSame2 (x y : Reg) (s t : State) : Prop := ∀ r, r ≠ x → r ≠ y → t.reg r = s.reg r

/-- `u` halted by the fault of the instruction `op` (R158): `ERR` records the kind, the fetch address (`PC` holds the
address after it) and the word; the mode is `HALT`; `fatal` is emitted; everything else stays as `u` has it. -/
def Faulted (k : Fault) (op : Word) (u : State) : State :=
  { u with
    mode := .halt
    err := { kind := k, pc := u.pc - 2, op := some op }
    out := u.out ++ [.fatal k (u.pc - 2) (some op)] }

/-- An instruction that skips the next one exactly when `c` holds and changes nothing else (R95). -/
def SkipsWhen (i : Instr) (c : State → Prop) : Prop :=
  ∀ s, ∃ t, exec i s = .next t ∧ OnlyPc s t ∧ (c s → t.pc = s.pc + 2) ∧ (¬ c s → t.pc = s.pc)

/-- The sprite bytes of the rows that are drawn are inside Memory. -/
def RowsInBounds (y : Reg) (n : Nibble) (s : State) : Prop :=
  ∀ r, r < n.toNat → startRow y s + r ≤ 31 → effBase s + r ≤ 0xFFF

/-- The sprite bytes of the rows that are drawn are below the framebuffer, so that source and screen do not overlap. -/
def SpriteBelowScreen (y : Reg) (n : Nibble) (s : State) : Prop :=
  ∀ r, r < n.toNat → startRow y s + r ≤ 31 → effBase s + r < 0xF00

/-- The sprite has a set bit on column `px` and screen row `py` (R132, R134): row `py - startRow` of it, the bit
`px - startColumn` from the left; columns past 63 and rows past 31 do not exist. -/
def SpriteSets (x y : Reg) (n : Nibble) (s : State) (px py : Nat) : Prop :=
  startRow y s ≤ py ∧ py - startRow y s < n.toNat ∧ startColumn x s ≤ px ∧ px - startColumn x s < 8 ∧
    (s.byteAt (effBase s + (py - startRow y s))).getLsbD (7 - (px - startColumn x s)) = true

/-- A sprite row `b` of `Dxyn` has a set bit on column `px` (R132); columns past 63 do not exist. -/
def RowSets (x : Reg) (s : State) (b : Byte) (px : Nat) : Prop :=
  startColumn x s ≤ px ∧ px - startColumn x s < 8 ∧ b.getLsbD (7 - (px - startColumn x s)) = true

/-- A framebuffer byte that the rows of `Dxyn` can store to: the byte `A` of a drawn row, by the function the meaning
uses for it, or `A + 1` when the sprite straddles it and it belongs to the same row (R132, R134). -/
def SpriteStoresTo (x y : Reg) (n : Nibble) (s : State) (a : Nat) : Prop :=
  ∃ r, r < n.toNat ∧ startRow y s + r ≤ 31 ∧
    (a = rowAddr (startColumn x s / 8) (startRow y s + r) ∨
      (startColumn x s % 8 ≠ 0 ∧ startColumn x s / 8 < 7 ∧
        a = rowAddr (startColumn x s / 8) (startRow y s + r) + 1))

/-- The word the next RUN step fetches, where both its bytes are inside Memory. -/
def wordAtPc (s : State) : Word := opcodeOf (s.byteAt s.pc.toNat) (s.byteAt (s.pc.toNat + 1))

/-- The instruction a RUN step in `s` dispatches is `i`. -/
def Dispatches (s : State) (i : Instr) : Prop :=
  s.mode = .run ∧ s.pc.toNat ≤ 0xFFE ∧ decodeWord (wordAtPc s) = .instr i

/-- The state the dispatched instruction sees: `PC` advanced by 2, then the timers evaluated (R71, R76). -/
def atDispatch (s : State) : State := timerEval (nextInput s).k { s with pc := s.pc + 2 }

end Sys2Proof.Claims

open Sys2Proof.Claims

/-! ### Encoding (spec/30_encoding.md) -/

/-- A few words written out from the spec's opcode map decode to the instruction they stand for. -/
def Obligations.SpecWordsDecode : Prop :=
  decode [0x00#8, 0xE0#8] = .instr .cls [] ∧
  decode [0x22#8, 0x10#8, 0xF2#8] = .instr (.call 0x210#12) [0xF2#8] ∧
  decode [0x6A#8, 0x2C#8] = .instr (.ldImm 0xA#4 0x2C#8) [] ∧
  decode [0x81#8, 0x27#8] = .instr (.subn 0x1#4 0x2#4) [] ∧
  decode [0xD1#8, 0x23#8] = .instr (.drw 0x1#4 0x2#4 0x3#4) [] ∧
  decode [0xE2#8, 0x9E#8] = .instr (.skp 0x2#4) [] ∧
  decode [0xF3#8, 0x65#8] = .instr (.ldVxMem 0x3#4) [] ∧
  decode [0x00#8, 0xE1#8] = .instr (.sys 0x0E1#12) [] ∧
  decode [0x81#8, 0x28#8] = .unknownOpcode ∧
  decode [0x60#8] = .truncated

/-- Decoding an encoded well-formed instruction gives it back, with every operand at every value, and leaves the bytes
after it (R50 to R58). -/
def Obligations.DecodeOfEncodeIsTheInstruction : Prop :=
  ∀ (i : Instr) (rest : List Byte), i.wellFormed = true → decode (encode i ++ rest) = .instr i rest

/-- Each word has one meaning: the instruction a word decodes to is well formed and encodes to that word. -/
def Obligations.EncodeOfDecodeIsTheWord : Prop :=
  ∀ (op : Word) (i : Instr), decodeWord op = .instr i → encodeWord i = op ∧ i.wellFormed = true

/-- R56, the whole second level of prefix 8, its seven illegal keys included. -/
def Obligations.PrefixEightIsKeyedOnN : Prop :=
  ∀ x y n : BitVec 4, decodeWord (0x8#4 ++ x ++ y ++ n) =
    if n = 0x0#4 then .instr (.ldReg x y) else if n = 0x1#4 then .instr (.orReg x y)
    else if n = 0x2#4 then .instr (.andReg x y) else if n = 0x3#4 then .instr (.xorReg x y)
    else if n = 0x4#4 then .instr (.addReg x y) else if n = 0x5#4 then .instr (.sub x y)
    else if n = 0x6#4 then .instr (.shr x y) else if n = 0x7#4 then .instr (.subn x y)
    else if n = 0xE#4 then .instr (.shl x y) else .unknownOpcode

/-- R57, the whole second level of prefixes E and F, every other `nn` included. -/
def Obligations.PrefixesEAndFAreKeyedOnNN : Prop :=
  ∀ (x : Reg) (nn : Byte),
    decodeWord (0xE#4 ++ x ++ nn) =
      (if nn = 0x9E#8 then .instr (.skp x) else if nn = 0xA1#8 then .instr (.sknp x) else .unknownOpcode) ∧
    decodeWord (0xF#4 ++ x ++ nn) =
      (if nn = 0x07#8 then .instr (.ldVxDt x) else if nn = 0x0A#8 then .instr (.ldVxK x)
       else if nn = 0x15#8 then .instr (.ldDtVx x) else if nn = 0x18#8 then .instr (.ldStVx x)
       else if nn = 0x1E#8 then .instr (.addIVx x) else if nn = 0x29#8 then .instr (.ldFVx x)
       else if nn = 0x33#8 then .instr (.ldBVx x) else if nn = 0x55#8 then .instr (.ldMemVx x)
       else if nn = 0x65#8 then .instr (.ldVxMem x) else .unknownOpcode)

/-! ### Reset and loading (spec/10_state.md, spec/20_memory.md, spec/70_reset_and_hazards.md) -/

/-- What reset leaves, for every value of the OPEN parameters (R23, R176); `STK`, `WX` and `ERR` are unspecified there
and nothing is said of them. The default parameters are the spec's own choice (R5). The reset PC is the spec's own
decision D3 (log entry 19). -/
def Obligations.ResetValues : Prop :=
  State.reset = State.resetWith { fontBase := 0x000#16, progBase := 0x200#16 } ∧
  ∀ c : Config,
    (∀ r, (State.resetWith c).reg r = 0x00#8) ∧ (State.resetWith c).i = 0x0000#16 ∧
    (State.resetWith c).pc = c.progBase ∧ (State.resetWith c).dt = 0x00#8 ∧ (State.resetWith c).st = 0x00#8 ∧
    (State.resetWith c).sp.val = 0 ∧ (State.resetWith c).mode = .run ∧
    (∀ a, (State.resetWith c).byteAt a = 0x00#8) ∧ (State.resetWith c).out = [] ∧ (State.resetWith c).cfg = c

/-- Loading after reset (R177, R40): a font and a program that fit are copied in, the program's bytes stay where the
two overlap, every other byte is 0 and nothing but Memory differs from reset; what does not fit is refused. The order
of the loads is the spec's own decision D33 (log entry 19). -/
def Obligations.ConstructionLoadsFontThenProgram : Prop :=
  ∀ (c : Config) (font program : List Byte),
    (c.fontBase.toNat + font.length ≤ 4096 → c.progBase.toNat + program.length ≤ 4096 →
      ∃ t, constructWith c font program = .next t ∧ OnlyMem (State.resetWith c) t ∧
        (∀ j (h : j < program.length), t.byteAt (c.progBase.toNat + j) = program[j]) ∧
        (∀ j (h : j < font.length),
          ¬ (c.progBase.toNat ≤ c.fontBase.toNat + j ∧ c.fontBase.toNat + j < c.progBase.toNat + program.length) →
          t.byteAt (c.fontBase.toNat + j) = font[j]) ∧
        (∀ a, ¬ (c.progBase.toNat ≤ a ∧ a < c.progBase.toNat + program.length) →
          ¬ (c.fontBase.toNat ≤ a ∧ a < c.fontBase.toNat + font.length) → t.byteAt a = 0x00#8)) ∧
    (4096 < c.fontBase.toNat + font.length ∨ 4096 < c.progBase.toNat + program.length →
      constructWith c font program = .refused .loadOutOfBounds)

/-- Reset asserted in any state and any mode (R175) is construction again with the same parameters: every register, the
stack, the mode and Memory are those of construction, and no event is emitted (R176); what does not fit is refused. That
the environment's own fields `inputs`, `freeUsed` and `out`, and nothing else, go on is the model's choice (log entry 4);
that nothing of the core survives is the spec's own decision D33, the reset `PC` D3 (log entry 19). -/
def Obligations.ResetAtAnyTimeConstructsAgain : Prop :=
  ∀ (s : State) (font program : List Byte),
    (s.cfg.fontBase.toNat + font.length ≤ 4096 → s.cfg.progBase.toNat + program.length ≤ 4096 →
      ∃ c t, constructWith s.cfg font program = .next c ∧ assertReset font program s = .next t ∧
        t = { c with inputs := s.inputs, freeUsed := s.freeUsed, out := s.out } ∧
        (∀ r, t.reg r = 0x00#8) ∧ t.i = 0x0000#16 ∧ t.pc = s.cfg.progBase ∧ t.dt = 0x00#8 ∧ t.st = 0x00#8 ∧
        t.sp.val = 0 ∧ t.mode = .run ∧ t.cfg = s.cfg ∧
        (∀ j (h : j < program.length), t.byteAt (s.cfg.progBase.toNat + j) = program[j]) ∧
        (∀ a, ¬ (s.cfg.progBase.toNat ≤ a ∧ a < s.cfg.progBase.toNat + program.length) →
          ¬ (s.cfg.fontBase.toNat ≤ a ∧ a < s.cfg.fontBase.toNat + font.length) → t.byteAt a = 0x00#8)) ∧
    (4096 < s.cfg.fontBase.toNat + font.length ∨ 4096 < s.cfg.progBase.toNat + program.length →
      assertReset font program s = .refused .loadOutOfBounds)

/-! ### The execution cycle (spec/40_cycle.md) -/

/-- A RUN step whose bytes at `PC` decode to an instruction is that instruction's meaning in the state after the advance
and the timer evaluation (R70, R71, R73 to R76), and uses up one input record. Where the record comes from, the first
listed one or, none being listed, `Config.freeInput` at the counter, is the model's choice (log entry 1), no rule's. -/
def Obligations.StepRunsTheDecodedInstruction : Prop :=
  (∀ (s t : State) (i : Instr), Dispatches s i → exec i (atDispatch s) = .next t → step s = .next (popInput t)) ∧
  (∀ (s : State) (inp : Input) (rest : List Input), s.inputs = inp :: rest →
    nextInput s = inp ∧ popInput s = { s with inputs := rest }) ∧
  (∀ s : State, s.inputs = [] →
    nextInput s = Config.freeInput s.freeUsed ∧ popInput s = { s with freeUsed := s.freeUsed + 1 })

/-- R73: every RUN step whose fetch succeeds advances `PC` by exactly 2, without wrapping, whether or not it then
faults; only the control transfers, the skips among them, write it again (R13). That `PC` does not wrap is the spec's
own decision D4 (log entry 11). -/
def Obligations.StepAdvancesPcByTwo : Prop :=
  ∀ s t : State, s.mode = .run → s.pc.toNat ≤ 0xFFE → step s = .next t →
    (atDispatch s).pc.toNat = s.pc.toNat + 2 ∧
    (t.mode = .halt → t.pc.toNat = s.pc.toNat + 2) ∧
    (t.pc.toNat ≠ s.pc.toNat + 2 → Dispatches s .ret ∨
      (∃ nnn, Dispatches s (.jp nnn) ∨ Dispatches s (.call nnn) ∨ Dispatches s (.jpV0 nnn)) ∨
      (t.pc.toNat = s.pc.toNat + 4 ∧
        ((∃ x nn, Dispatches s (.seImm x nn) ∨ Dispatches s (.sneImm x nn)) ∨
         (∃ x y, Dispatches s (.seReg x y) ∨ Dispatches s (.sneReg x y)) ∨
         ∃ x, Dispatches s (.skp x) ∨ Dispatches s (.sknp x))))

/-- R72: both bytes of the fetch must be inside Memory; else the step halts before anything else, with `ERR.op`
absent. Where and how it faults is the spec's own decision, D5 and D24 (log entry 11). -/
def Obligations.FetchOutOfBoundsHalts : Prop :=
  (∀ s : State, s.pc.toNat ≤ 0xFFE → fetch s = some [s.byteAt s.pc.toNat, s.byteAt (s.pc.toNat + 1)]) ∧
  (∀ s : State, s.mode = .run → 0xFFE < s.pc.toNat → step s = .next (popInput
    { s with
      mode := .halt
      err := { kind := .outOfBounds, pc := s.pc, op := none }
      out := s.out ++ [.fatal .outOfBounds s.pc none] }))

/-- The unknown opcodes are exactly the words R151 lists, and a step that fetches one advances `PC`, evaluates the timers,
halts with kind 1, the fetch address and the word, and changes nothing else. That the timers were evaluated is the spec's
resolution C3 and its own decision D25 (log entry 28). -/
def Obligations.UnknownOpcodeHalts : Prop :=
  (∀ op : Word, decodeWord op = .unknownOpcode ↔
    ((fieldsOf op).pfx = 0x5#4 ∧ (fieldsOf op).n ≠ 0x0#4) ∨
    ((fieldsOf op).pfx = 0x9#4 ∧ (fieldsOf op).n ≠ 0x0#4) ∨
    ((fieldsOf op).pfx = 0x8#4 ∧ ((0x8#4 ≤ (fieldsOf op).n ∧ (fieldsOf op).n ≤ 0xD#4) ∨ (fieldsOf op).n = 0xF#4)) ∨
    ((fieldsOf op).pfx = 0xE#4 ∧ (fieldsOf op).nn ∉ [0x9E#8, 0xA1#8]) ∨
    ((fieldsOf op).pfx = 0xF#4 ∧
      (fieldsOf op).nn ∉ [0x07#8, 0x0A#8, 0x15#8, 0x18#8, 0x1E#8, 0x29#8, 0x33#8, 0x55#8, 0x65#8])) ∧
  (∀ s : State, s.mode = .run → s.pc.toNat ≤ 0xFFE → decodeWord (wordAtPc s) = .unknownOpcode →
    step s = .next (popInput (Faulted .unknownOpcode (wordAtPc s) (atDispatch s))))

/-- R70, R78: a step in HALT returns the state unchanged, no output, whatever its inputs; a halted state read as an
outcome is the fault that `ERR` records. What halting means is the spec's own decision D22 (log entries 9, 10). -/
def Obligations.HaltAbsorbs : Prop :=
  ∀ s : State, s.mode = .halt → step s = .next s ∧ s.outcome = .fault s.err.kind

/-- R77, R147: a WAIT_KEY step evaluates the timers; a key-press event writes the waiting register and ends the wait;
with none, nothing more happens, whatever keys are held. `PC` does not move. The running timers and what ends the wait
are the spec's own decisions D20, D19 (log entries 16, 24). -/
def Obligations.WaitStepTakesAKeyPress : Prop :=
  ∀ s : State, s.mode = .waitKey →
    ((nextInput s).keyEvent = none → step s = .next (popInput (timerEval (nextInput s).k s))) ∧
    (∀ k, (nextInput s).keyEvent = some k → ∃ t, step s = .next (popInput t) ∧
      (t.reg s.wx).toNat = k.toNat ∧ OthersSame s.wx s t ∧ t.mode = .run ∧
      t = { timerEval (nextInput s).k s with v := t.v, mode := .run })

/-- R161: each timer falls by `k` and stops at 0, `audio_stop` is emitted exactly when the sound timer reaches 0, and
nothing else changes. That the environment gives the count is the spec's own decision D26 (log entry 16). -/
def Obligations.TimersFallByElapsedIntervals : Prop :=
  ∀ (k : Nat) (s : State),
    (timerEval k s).dt.toNat = s.dt.toNat - min s.dt.toNat k ∧
    (timerEval k s).st.toNat = s.st.toNat - min s.st.toNat k ∧
    (s.st.toNat ≠ 0 → s.st.toNat ≤ k → (timerEval k s).out = s.out ++ [.audioStop]) ∧
    (s.st.toNat = 0 ∨ k < s.st.toNat → (timerEval k s).out = s.out) ∧
    timerEval k s = { s with dt := (timerEval k s).dt, st := (timerEval k s).st, out := (timerEval k s).out }

/-- R79: a jump to itself repeats for ever: a step there leaves Memory, V, I, SP, STK, PC and MODE, whatever the
inputs. The shape of a run's end is the spec's own decision D34. -/
def Obligations.SelfJumpRepeats : Prop :=
  ∀ s : State, s.atSelfJump → ∃ t, step s = .next t ∧ t.atSelfJump ∧
    t = { s with dt := t.dt, st := t.st, out := t.out, inputs := t.inputs, freeUsed := t.freeUsed }

/-! ### Control transfer (spec/41_control_flow.md) -/

/-- R86: `00EE` pops the most recent entry into `PC`; with an empty stack it raises stack-underflow and changes nothing. -/
def Obligations.ReturnPopsOrUnderflows : Prop :=
  Encodes 0x00EE#16 .ret ∧ ∀ s : State,
    (∀ (j : Nat) (hj : j < 16), s.sp.val = j + 1 → ∃ t, exec .ret s = .next t ∧
      t.pc = s.stkAt j hj ∧ t.sp.val = j ∧ t = { s with pc := t.pc, sp := t.sp } ∧ ∀ a, t.byteAt a = s.byteAt a) ∧
    (s.sp.val = 0 → exec .ret s = .next (Faulted .stackUnderflow 0x00EE#16 s))

/-- R88: `2nnn` pushes the advanced `PC` and jumps; with 16 entries in use it raises stack-overflow and pushes nothing. -/
def Obligations.CallPushesOrOverflows : Prop :=
  ∀ (nnn : Addr12), Encodes (0x2#4 ++ nnn) (.call nnn) ∧ ∀ s : State,
    (∀ h : s.sp.val < 16, ∃ t, exec (.call nnn) s = .next t ∧
      t.stkAt s.sp.val h = s.pc ∧ (∀ (j : Nat) (hj : j < 16), j ≠ s.sp.val → t.stkAt j hj = s.stkAt j hj) ∧
      t.sp.val = s.sp.val + 1 ∧ t.pc.toNat = nnn.toNat ∧
      t = { s with pc := t.pc, sp := t.sp, stk := t.stk } ∧ ∀ a, t.byteAt a = s.byteAt a) ∧
    (s.sp.val = 16 → exec (.call nnn) s = .next (Faulted .stackOverflow (0x2#4 ++ nnn) s))

/-- A call followed, from any state whose stack is as the call left it, by a return restores `PC` to the instruction
after the call and the stack pointer to what it was (R86, R88). -/
def Obligations.CallThenReturnRestoresPc : Prop :=
  ∀ (nnn : Addr12) (s : State), s.sp.val < 16 → ∃ t, exec (.call nnn) s = .next t ∧
    ∀ u : State, u.sp = t.sp → (∀ (j : Nat) (hj : j < 16), j < t.sp.val → u.stkAt j hj = t.stkAt j hj) →
      ∃ w, exec .ret u = .next w ∧ w.pc = s.pc ∧ w.sp = s.sp ∧
        ∀ (j : Nat) (hj : j < 16), j < w.sp.val → w.stkAt j hj = s.stkAt j hj

/-- R87, R93: the two jumps write `PC` alone; the sum of `Bnnn` is kept in full. Keeping it is the spec's own decision
D4 (log entry 11). -/
def Obligations.JumpTargets : Prop :=
  ∀ (nnn : Addr12), Encodes (0x1#4 ++ nnn) (.jp nnn) ∧ Encodes (0xB#4 ++ nnn) (.jpV0 nnn) ∧ ∀ s : State,
    (∃ t, exec (.jp nnn) s = .next t ∧ t.pc.toNat = nnn.toNat ∧ OnlyPc s t) ∧
    (∃ t, exec (.jpV0 nnn) s = .next t ∧ t.pc.toNat = nnn.toNat + (s.reg 0x0#4).toNat ∧ OnlyPc s t)

/-- R89 to R92: the four register skips; a taken one adds 2 to `PC` and nothing else changes. -/
def Obligations.RegisterSkips : Prop :=
  ∀ (x y : Reg) (nn : Byte),
    Encodes (0x3#4 ++ x ++ nn) (.seImm x nn) ∧ SkipsWhen (.seImm x nn) (fun s => s.reg x = nn) ∧
    Encodes (0x4#4 ++ x ++ nn) (.sneImm x nn) ∧ SkipsWhen (.sneImm x nn) (fun s => s.reg x ≠ nn) ∧
    Encodes (0x5#4 ++ x ++ y ++ 0x0#4) (.seReg x y) ∧ SkipsWhen (.seReg x y) (fun s => s.reg x = s.reg y) ∧
    Encodes (0x9#4 ++ x ++ y ++ 0x0#4) (.sneReg x y) ∧ SkipsWhen (.sneReg x y) (fun s => s.reg x ≠ s.reg y) ∧
    (∀ n : Nibble, n ≠ 0x0#4 → decodeWord (0x5#4 ++ x ++ y ++ n) = .unknownOpcode ∧
      decodeWord (0x9#4 ++ x ++ y ++ n) = .unknownOpcode)

/-- R94, R152: every word of prefix 0 but 0x00E0 and 0x00EE is the legacy call, which always faults with kind 2 and
changes nothing else. One kind only is the spec's own decision D37 (log entry 21). -/
def Obligations.LegacyCallAlwaysFaults : Prop :=
  (∀ nnn : Addr12, nnn ≠ 0x0E0#12 → nnn ≠ 0x0EE#12 → Encodes (0x0#4 ++ nnn) (.sys nnn)) ∧
  (∀ (op : Word) (nnn : Addr12), decodeWord op = .instr (.sys nnn) →
    (fieldsOf op).pfx = 0x0#4 ∧ op ≠ 0x00E0#16 ∧ op ≠ 0x00EE#16) ∧
  (∀ (nnn : Addr12) (s : State), exec (.sys nnn) s = .next (Faulted .legacyCall (0x0#4 ++ nnn) s))

/-! ### Register load, arithmetic, logic, shift, random (spec/42_alu.md) -/

/-- R101 to R103: the two loads and the immediate add write `V[x]` alone, `VF` only as their destination; and R101's own
sentence, over a whole step: `6xnn` sets register x and advances the program counter by exactly 2. -/
def Obligations.LoadsAndImmediateAdd : Prop :=
  ∀ (x y : Reg) (nn : Byte),
    Encodes (0x6#4 ++ x ++ nn) (.ldImm x nn) ∧ Encodes (0x7#4 ++ x ++ nn) (.addImm x nn) ∧
    Encodes (0x8#4 ++ x ++ y ++ 0x0#4) (.ldReg x y) ∧ ∀ s : State,
    (∃ t, exec (.ldImm x nn) s = .next t ∧ t.reg x = nn ∧ OthersSame x s t ∧ OnlyV s t) ∧
    (∃ t, exec (.addImm x nn) s = .next t ∧ (t.reg x).toNat = ((s.reg x).toNat + nn.toNat) % 256 ∧
      OthersSame x s t ∧ OnlyV s t) ∧
    (∃ t, exec (.ldReg x y) s = .next t ∧ t.reg x = s.reg y ∧ OthersSame x s t ∧ OnlyV s t) ∧
    (Dispatches s (.ldImm x nn) → ∃ t, step s = .next t ∧ t.reg x = nn ∧ t.pc.toNat = s.pc.toNat + 2)

/-- R104 to R106: the logic operations, bit by bit; `VF` is not changed unless it is the destination. -/
def Obligations.LogicOperations : Prop :=
  ∀ (x y : Reg),
    Encodes (0x8#4 ++ x ++ y ++ 0x1#4) (.orReg x y) ∧ Encodes (0x8#4 ++ x ++ y ++ 0x2#4) (.andReg x y) ∧
    Encodes (0x8#4 ++ x ++ y ++ 0x3#4) (.xorReg x y) ∧ ∀ s : State,
    (∃ t, exec (.orReg x y) s = .next t ∧ OthersSame x s t ∧ OnlyV s t ∧
      ∀ j, (t.reg x).getLsbD j = ((s.reg x).getLsbD j || (s.reg y).getLsbD j)) ∧
    (∃ t, exec (.andReg x y) s = .next t ∧ OthersSame x s t ∧ OnlyV s t ∧
      ∀ j, (t.reg x).getLsbD j = ((s.reg x).getLsbD j && (s.reg y).getLsbD j)) ∧
    (∃ t, exec (.xorReg x y) s = .next t ∧ OthersSame x s t ∧ OnlyV s t ∧
      ∀ j, (t.reg x).getLsbD j = Bool.xor ((s.reg x).getLsbD j) ((s.reg y).getLsbD j))

/-- R107 with the write order of R100(b): the sum modulo 256 and the carry; with x = F the carry stays. The order is
the spec's own decision D10 (log entry 5). -/
def Obligations.AddSetsCarry : Prop :=
  ∀ (x y : Reg), Encodes (0x8#4 ++ x ++ y ++ 0x4#4) (.addReg x y) ∧ ∀ s : State,
    ∃ t, exec (.addReg x y) s = .next t ∧
      (x ≠ 0xF#4 → (t.reg x).toNat = ((s.reg x).toNat + (s.reg y).toNat) % 256) ∧
      (t.reg 0xF#4).toNat = (if (s.reg x).toNat + (s.reg y).toNat > 255 then 1 else 0) ∧
      OthersSame2 x 0xF#4 s t ∧ OnlyV s t

/-- R108, R110 with the write order of R100(b): the difference modulo 256, and `VF` is 1 on a borrow; with x = F the
flag stays. The order is the spec's own decision D10 (log entry 5). -/
def Obligations.SubtractionsSetBorrow : Prop :=
  ∀ (x y : Reg),
    Encodes (0x8#4 ++ x ++ y ++ 0x5#4) (.sub x y) ∧ Encodes (0x8#4 ++ x ++ y ++ 0x7#4) (.subn x y) ∧ ∀ s : State,
    (∃ t, exec (.sub x y) s = .next t ∧
      (x ≠ 0xF#4 → (t.reg x).toNat = ((s.reg x).toNat + 256 - (s.reg y).toNat) % 256) ∧
      (t.reg 0xF#4).toNat = (if (s.reg x).toNat < (s.reg y).toNat then 1 else 0) ∧
      OthersSame2 x 0xF#4 s t ∧ OnlyV s t) ∧
    (∃ t, exec (.subn x y) s = .next t ∧
      (x ≠ 0xF#4 → (t.reg x).toNat = ((s.reg y).toNat + 256 - (s.reg x).toNat) % 256) ∧
      (t.reg 0xF#4).toNat = (if (s.reg y).toNat < (s.reg x).toNat then 1 else 0) ∧
      OthersSame2 x 0xF#4 s t ∧ OnlyV s t)

/-- R109, R111 with the write order of R100(b): the shifts by one of `V[x]`, whatever `y` is, and the bit shifted out
in `VF`; with x = F the shifted result stays. The order and the ignored field are the spec's own decisions D10, D11
(log entries 5, 22). -/
def Obligations.ShiftsSetTheBitShiftedOut : Prop :=
  ∀ (x y : Reg),
    Encodes (0x8#4 ++ x ++ y ++ 0x6#4) (.shr x y) ∧ Encodes (0x8#4 ++ x ++ y ++ 0xE#4) (.shl x y) ∧ ∀ s : State,
    (∃ t, exec (.shr x y) s = .next t ∧ (t.reg x).toNat = (s.reg x).toNat / 2 ∧
      (x ≠ 0xF#4 → (t.reg 0xF#4).toNat = (s.reg x).toNat % 2) ∧ OthersSame2 x 0xF#4 s t ∧ OnlyV s t) ∧
    (∃ t, exec (.shl x y) s = .next t ∧ (t.reg x).toNat = (s.reg x).toNat * 2 % 256 ∧
      (x ≠ 0xF#4 → (t.reg 0xF#4).toNat = (s.reg x).toNat / 128) ∧ OthersSame2 x 0xF#4 s t ∧ OnlyV s t)

/-- R113: `Cxnn` masks the step's random byte, whatever it is; no result has a bit outside `nn`. The byte as an input
is the spec's own decision D12 (log entry 1). -/
def Obligations.RandomByteIsMasked : Prop :=
  ∀ (x : Reg) (nn : Byte), Encodes (0xC#4 ++ x ++ nn) (.rnd x nn) ∧ ∀ s : State,
    ∃ t, exec (.rnd x nn) s = .next t ∧ t.reg x = nn &&& (nextInput s).rnd ∧ t.reg x &&& ~~~nn = 0x00#8 ∧
      OthersSame x s t ∧ OnlyV s t

/-! ### Index register and memory transfer (spec/43_index_memory.md) -/

/-- R121, R122: `I` from an immediate, and the sum of `I` and a register modulo 4096; no flag, and nothing else changes. -/
def Obligations.IndexLoadAndAdd : Prop :=
  ∀ (x : Reg) (nnn : Addr12),
    Encodes (0xA#4 ++ nnn) (.ldI nnn) ∧ Encodes (0xF#4 ++ x ++ 0x1E#8) (.addIVx x) ∧ ∀ s : State,
    (∃ t, exec (.ldI nnn) s = .next t ∧ t.i.toNat = nnn.toNat ∧ OnlyI s t) ∧
    (∃ t, exec (.addIVx x) s = .next t ∧ t.i.toNat = (s.i.toNat + (s.reg x).toNat) % 4096 ∧ OnlyI s t)

/-- R123: the glyph address counts with all 8 bits of the register, the spec's own decision D13 (log entry 12). Where the
font base meets rule R5's constraints nothing is truncated (R12). -/
def Obligations.GlyphAddress : Prop :=
  ∀ (x : Reg), Encodes (0xF#4 ++ x ++ 0x29#8) (.ldFVx x) ∧ ∀ s : State,
    ∃ t, exec (.ldFVx x) s = .next t ∧
      (s.cfg.wf → t.i.toNat = s.cfg.fontBase.toNat + (s.reg x).toNat * 5) ∧ OnlyI s t

/-- R124 with R120: the three digits at I, I+1, I+2, a byte each, and every other byte, `I` and the registers
unchanged; where I+2 is above 0xFFF it raises out-of-bounds-memory-access with the digits below stored. What a fault
leaves is the spec's own decision D15 (log entry 13). -/
def Obligations.BcdStoresThreeDigits : Prop :=
  ∀ (x : Reg), Encodes (0xF#4 ++ x ++ 0x33#8) (.ldBVx x) ∧ ∀ s : State, Memory.wf s.mem = true →
    (effBase s + 2 ≤ 0xFFF →
      ∃ t, exec (.ldBVx x) s = .next t ∧ OnlyMem s t ∧
        (t.byteAt (effBase s)).toNat = (s.reg x).toNat / 100 ∧
        (t.byteAt (effBase s + 1)).toNat = (s.reg x).toNat / 10 % 10 ∧
        (t.byteAt (effBase s + 2)).toNat = (s.reg x).toNat % 10 ∧
        ∀ a, ¬ (effBase s ≤ a ∧ a ≤ effBase s + 2) → t.byteAt a = s.byteAt a) ∧
    (0xFFF < effBase s + 2 →
      ∃ u, exec (.ldBVx x) s = .next (Faulted .outOfBounds (0xF#4 ++ x ++ 0x33#8) u) ∧ OnlyMem s u ∧
        (effBase s ≤ 0xFFF → (u.byteAt (effBase s)).toNat = (s.reg x).toNat / 100) ∧
        (effBase s + 1 ≤ 0xFFF → (u.byteAt (effBase s + 1)).toNat = (s.reg x).toNat / 10 % 10) ∧
        ∀ a, ¬ (effBase s ≤ a ∧ a ≤ 0xFFF) → u.byteAt a = s.byteAt a)

/-- R125 with R120: V0 to Vx at I to I + x, and every other byte, `I` and the registers unchanged; where I + x is
above 0xFFF it raises out-of-bounds-memory-access with the bytes below stored. What a fault leaves and the unchanged
`I` are the spec's own decisions D15, D14 (log entries 13, 15). -/
def Obligations.StoreRegistersAscending : Prop :=
  ∀ (x : Reg), Encodes (0xF#4 ++ x ++ 0x55#8) (.ldMemVx x) ∧ ∀ s : State, Memory.wf s.mem = true →
    (effBase s + x.toNat ≤ 0xFFF →
      ∃ t, exec (.ldMemVx x) s = .next t ∧ OnlyMem s t ∧
        (∀ r : Reg, r.toNat ≤ x.toNat → t.byteAt (effBase s + r.toNat) = s.reg r) ∧
        ∀ a, ¬ (effBase s ≤ a ∧ a ≤ effBase s + x.toNat) → t.byteAt a = s.byteAt a) ∧
    (0xFFF < effBase s + x.toNat →
      ∃ u, exec (.ldMemVx x) s = .next (Faulted .outOfBounds (0xF#4 ++ x ++ 0x55#8) u) ∧ OnlyMem s u ∧
        (∀ r : Reg, r.toNat ≤ x.toNat → effBase s + r.toNat ≤ 0xFFF → u.byteAt (effBase s + r.toNat) = s.reg r) ∧
        ∀ a, ¬ (effBase s ≤ a ∧ a ≤ 0xFFF) → u.byteAt a = s.byteAt a)

/-- R126 with R120: V0 to Vx from I to I + x, and every other register, `I` and Memory unchanged; where I + x is above
0xFFF it raises out-of-bounds-memory-access with the registers below the faulting index loaded. What a fault leaves
and the unchanged `I` are the spec's own decisions D15, D14 (log entries 13, 15). -/
def Obligations.LoadRegistersAscending : Prop :=
  ∀ (x : Reg), Encodes (0xF#4 ++ x ++ 0x65#8) (.ldVxMem x) ∧ ∀ s : State,
    (effBase s + x.toNat ≤ 0xFFF →
      ∃ t, exec (.ldVxMem x) s = .next t ∧ OnlyV s t ∧
        (∀ r : Reg, r.toNat ≤ x.toNat → t.reg r = s.byteAt (effBase s + r.toNat)) ∧
        ∀ r : Reg, x.toNat < r.toNat → t.reg r = s.reg r) ∧
    (0xFFF < effBase s + x.toNat →
      ∃ u, exec (.ldVxMem x) s = .next (Faulted .outOfBounds (0xF#4 ++ x ++ 0x65#8) u) ∧ OnlyV s u ∧
        (∀ r : Reg, r.toNat ≤ x.toNat → effBase s + r.toNat ≤ 0xFFF → u.reg r = s.byteAt (effBase s + r.toNat)) ∧
        ∀ r : Reg, 0xFFF < effBase s + r.toNat ∨ x.toNat < r.toNat → u.reg r = s.reg r)

/-! ### Display (spec/44_display.md) -/

/-- R131: `00E0` zeroes exactly the framebuffer, and leaves all other memory and everything else untouched; no event.
Emitting no event is the spec's own decision D30 (log entry 18). -/
def Obligations.ClearScreenZeroesExactlyTheFramebuffer : Prop :=
  Encodes 0x00E0#16 .cls ∧ ∀ s : State, Memory.wf s.mem = true →
    ∃ t, exec .cls s = .next t ∧ OnlyMem s t ∧
      (∀ a, 0xF00 ≤ a → a ≤ 0xFFF → t.byteAt a = 0x00#8) ∧
      ∀ a, ¬ (0xF00 ≤ a ∧ a ≤ 0xFFF) → t.byteAt a = s.byteAt a

/-- A sprite whose drawn rows are in bounds completes: `VF` is 0 or 1 and the one register written, one `render` event
carries the framebuffer as the draw left it, and every byte outside those the rows store to is unchanged (R133 to
R136). A draw of no row and the skipped rows are the spec's own decision D16 (log entry 14). -/
def Obligations.DrawCompletesAndRendersOnce : Prop :=
  ∀ (x y : Reg) (n : Nibble) (s : State), RowsInBounds y n s →
    ∃ t, exec (.drw x y n) s = .next t ∧ t = { s with v := t.v, mem := t.mem, out := t.out } ∧
      t.out = s.out ++ [.render ((List.range 256).map fun j => t.byteAt (0xF00 + j))] ∧
      OthersSame 0xF#4 s t ∧ (t.reg 0xF#4 = 0x00#8 ∨ t.reg 0xF#4 = 0x01#8) ∧
      (n = 0x0#4 → t.reg 0xF#4 = 0x00#8) ∧
      ∀ a, ¬ SpriteStoresTo x y n s a → t.byteAt a = s.byteAt a

/-- The picture after a draw, pixel by pixel: each pixel is the old one XORed with the sprite's bit on it, the start
position wraps and the body is clipped at the right and the bottom edge (R132 to R134). That a skipped row reads no
byte is the spec's own decision D16 (log entry 14). A sprite in the framebuffer changes while it is drawn (R137):
`DrawIsRowByRow`. -/
def Obligations.DrawXorsEveryPixel : Prop :=
  ∀ (x y : Reg) (n : Nibble) (s : State), Memory.wf s.mem = true → SpriteBelowScreen y n s →
    ∃ t, exec (.drw x y n) s = .next t ∧
      ∀ px py, px < 64 → py < 32 →
        (SpriteSets x y n s px py → t.pixel px py = !s.pixel px py) ∧
        (¬ SpriteSets x y n s px py → t.pixel px py = s.pixel px py)

/-- R133, R137: `Dxyn` row by row, for every sprite in bounds, one that lies in the framebuffer or runs into it included.
No row leaves Memory and clears `VF`. One row more is the draw of the rows above followed by that row, drawn with the byte
that Memory holds after the rows above it: each pixel of its screen row is XORed with that byte's bit, every other byte
stays, and `VF` is 1 iff it was 1 or a set pixel met a set bit; a row below the screen changes nothing. The order of the
rows and the skipped rows are the spec's own decision D16 (log entry 14). -/
def Obligations.DrawIsRowByRow : Prop :=
  ∀ (x y : Reg) (s : State),
    (∃ t, exec (.drw x y 0x0#4) s = .next t ∧ t.mem = s.mem ∧ t.reg 0xF#4 = 0x00#8) ∧
    ∀ n m : Nibble, m.toNat = n.toNat + 1 → Memory.wf s.mem = true → RowsInBounds y m s →
      ∃ t u, exec (.drw x y n) s = .next t ∧ exec (.drw x y m) s = .next u ∧
        (31 < startRow y s + n.toNat → u.mem = t.mem ∧ u.reg 0xF#4 = t.reg 0xF#4) ∧
        (startRow y s + n.toNat ≤ 31 →
          (∀ px, px < 64 →
            (RowSets x s (t.byteAt (effBase s + n.toNat)) px →
              u.pixel px (startRow y s + n.toNat) = !t.pixel px (startRow y s + n.toNat)) ∧
            (¬ RowSets x s (t.byteAt (effBase s + n.toNat)) px →
              u.pixel px (startRow y s + n.toNat) = t.pixel px (startRow y s + n.toNat))) ∧
          (∀ a, ¬ (0xF00 + 8 * (startRow y s + n.toNat) ≤ a ∧ a ≤ 0xF00 + 8 * (startRow y s + n.toNat) + 7) →
            u.byteAt a = t.byteAt a) ∧
          (u.reg 0xF#4 = 0x01#8 ↔ t.reg 0xF#4 = 0x01#8 ∨ ∃ px, px < 64 ∧
            RowSets x s (t.byteAt (effBase s + n.toNat)) px ∧ t.pixel px (startRow y s + n.toNat) = true))

/-- R135: "VF is set to 1 if any previously-set pixel was cleared by the XOR (collision), 0 otherwise", also where the
sprite lies in the framebuffer itself. The order of the rows is the spec's own decision D16 (log entry 14). -/
def Obligations.CollisionIffAPixelWasCleared : Prop :=
  ∀ (x y : Reg) (n : Nibble) (s : State), Memory.wf s.mem = true → RowsInBounds y n s →
    ∃ t, exec (.drw x y n) s = .next t ∧
      ((∃ px py, px < 64 ∧ py < 32 ∧ s.pixel px py = true ∧ t.pixel px py = false) → t.reg 0xF#4 = 0x01#8) ∧
      ((¬ ∃ px py, px < 64 ∧ py < 32 ∧ s.pixel px py = true ∧ t.pixel px py = false) → t.reg 0xF#4 = 0x00#8)

/-- Drawing a sprite twice at one position restores all of Memory, and the second draw collides iff the sprite has a
set bit on a pixel that was clear (R133, R135, the example of R133 for every sprite). That a skipped row reads no byte
is the spec's own decision D16 (log entry 14). With x or y = F the first draw moves the position, and in the
framebuffer it changes the sprite: `DrawIsRowByRow`. -/
def Obligations.DrawTwiceRestoresTheScreen : Prop :=
  ∀ (x y : Reg) (n : Nibble) (s : State), x ≠ 0xF#4 → y ≠ 0xF#4 → Memory.wf s.mem = true → SpriteBelowScreen y n s →
    ∃ t u, exec (.drw x y n) s = .next t ∧ exec (.drw x y n) t = .next u ∧ u.mem = s.mem ∧
      (u.reg 0xF#4 = 0x01#8 ↔
        ∃ px py, px < 64 ∧ py < 32 ∧ SpriteSets x y n s px py ∧ s.pixel px py = false)

/-- A draw whose first row out of bounds is row `k` faults there: Memory is as the draw of the `k` rows above leaves
it, `VF` is not written and no frame is rendered (R133, R120). What a fault leaves is the spec's own decision D15 (log
entry 13). -/
def Obligations.DrawOutOfBoundsKeepsTheRowsAbove : Prop :=
  ∀ (x y : Reg) (n k : Nibble) (s : State), k.toNat < n.toNat → startRow y s + k.toNat ≤ 31 →
    0xFFF < effBase s + k.toNat → RowsInBounds y k s →
    ∃ t, exec (.drw x y k) s = .next t ∧
      exec (.drw x y n) s =
        .next (Faulted .outOfBounds (0xD#4 ++ x ++ y ++ n) { s with mem := t.mem })

/-! ### Timer access and keys (spec/45_timers_keys.md) -/

/-- R141, R142: the delay timer is read into a register and set from one. -/
def Obligations.DelayTimerAccess : Prop :=
  ∀ (x : Reg), Encodes (0xF#4 ++ x ++ 0x07#8) (.ldVxDt x) ∧ Encodes (0xF#4 ++ x ++ 0x15#8) (.ldDtVx x) ∧ ∀ s : State,
    (∃ t, exec (.ldVxDt x) s = .next t ∧ t.reg x = s.dt ∧ OthersSame x s t ∧ OnlyV s t) ∧
    (∃ t, exec (.ldDtVx x) s = .next t ∧ t.dt = s.reg x ∧ t = { s with dt := t.dt } ∧
      ∀ a, t.byteAt a = s.byteAt a)

/-- R143: the sound timer is set; a nonzero value starts the audio, 0 over a nonzero one stops it, 0 over 0 emits
nothing. The conditions of the events are the spec's own decisions D27, D28 (log entry 17). -/
def Obligations.SoundTimerWriteSignalsAudio : Prop :=
  ∀ (x : Reg), Encodes (0xF#4 ++ x ++ 0x18#8) (.ldStVx x) ∧ ∀ s : State,
    ∃ t, exec (.ldStVx x) s = .next t ∧ t.st = s.reg x ∧ t = { s with st := t.st, out := t.out } ∧
      (∀ a, t.byteAt a = s.byteAt a) ∧
      (s.reg x ≠ 0x00#8 → t.out = s.out ++ [.audioStart]) ∧
      (s.reg x = 0x00#8 → s.st ≠ 0x00#8 → t.out = s.out ++ [.audioStop]) ∧
      (s.reg x = 0x00#8 → s.st = 0x00#8 → t.out = s.out)

/-- R144, R145: the key skips poll the step's keys; a number above 15 names no key. That is the spec's own decision
D18, the sixteen keys D17 (log entry 6). -/
def Obligations.KeySkips : Prop :=
  ∀ (x : Reg),
    Encodes (0xE#4 ++ x ++ 0x9E#8) (.skp x) ∧
    SkipsWhen (.skp x) (fun s => (s.reg x).toNat ≤ 15 ∧ (nextInput s).keys.getLsbD (s.reg x).toNat = true) ∧
    Encodes (0xE#4 ++ x ++ 0xA1#8) (.sknp x) ∧
    SkipsWhen (.sknp x) (fun s => ¬ ((s.reg x).toNat ≤ 15 ∧ (nextInput s).keys.getLsbD (s.reg x).toNat = true))

/-- R146: `Fx0A` enters the wait and writes no register; the key event of its own step is not looked at. That is the
spec's own decision D19 (log entry 24). -/
def Obligations.KeyWaitIsEntered : Prop :=
  ∀ (x : Reg), Encodes (0xF#4 ++ x ++ 0x0A#8) (.ldVxK x) ∧ ∀ s : State,
    ∃ t, exec (.ldVxK x) s = .next t ∧ t.wx = x ∧ t.mode = .waitKey ∧ (∀ r, t.reg r = s.reg r) ∧
      t = { s with wx := x, mode := .waitKey } ∧ ∀ a, t.byteAt a = s.byteAt a

/-! ### The whole machine -/

/-- The step is total (R70): every state has a next one, the fetch fault, unknown words and full stacks included, and
no step changes the parameters (R5). That a fault's entry is a next state is the model's choice (log entry 9). -/
def Obligations.EveryStepHasANextState : Prop :=
  ∀ s : State, ∃ t, step s = .next t ∧ t.cfg = s.cfg

/-- R25's bounds, the canonical form of Memory and the constraints on the parameters hold after every step from every
state where they hold. -/
def Obligations.StepKeepsInvariants : Prop :=
  ∀ s t : State, s.Inv → step s = .next t → t.Inv

/-- They hold at reset, and in every machine built with parameters that meet rule R5's constraints. -/
def Obligations.ResetMeetsInvariants : Prop :=
  State.reset.Inv ∧ State.reset.AudioInSync ∧ State.reset.FatalIsLast ∧
  ∀ (c : Config) (font program : List Byte) (t : State), c.wf → constructWith c font program = .next t →
    t.Inv ∧ t.AudioInSync ∧ t.FatalIsLast

/-- R163: "audio is playing iff ST > 0" is kept by every step, for an environment that starts playing on `audio_start`
and stops on `audio_stop`. It rests on the spec's own decisions D27, D28 (log entry 17). -/
def Obligations.StepKeepsAudioInSync : Prop :=
  ∀ s t : State, s.AudioInSync → step s = .next t → t.AudioInSync

/-- R168: `fatal` is emitted once, as the last event of the trace, and says what `ERR` records; a core that is not halted
has emitted none. Every step keeps this. -/
def Obligations.StepKeepsFatalLast : Prop :=
  ∀ s t : State, s.FatalIsLast → step s = .next t → t.FatalIsLast

/-- R81: a step appends at most two events: first the `audio_stop` of the timers, then at most one of the instruction's
or of a fault. -/
def Obligations.StepEmitsAtMostTwoEvents : Prop :=
  ∀ s t : State, step s = .next t → ∃ timers own : List Event, t.out = s.out ++ timers ++ own ∧
    (timers = [] ∨ timers = [.audioStop]) ∧ own.length ≤ 1 ∧ (s.mode = .halt → timers ++ own = []) ∧
    (s.mode = .waitKey → own = [])

/-- R163, R14: a timer never rises in a step but by the instruction that sets it. -/
def Obligations.TimersRiseOnlyWhenSet : Prop :=
  ∀ s t : State, step s = .next t →
    ((∀ x, ¬ Dispatches s (.ldDtVx x)) → t.dt ≤ s.dt) ∧ ((∀ x, ¬ Dispatches s (.ldStVx x)) → t.st ≤ s.st)

/-- R158: a step that halts records the fetch address; `PC` is that address for a fetch fault, with no word, and two
past it for every other fault, with the fetched word; the last event says the same. The record and the fetch fault are
the spec's own decisions D22, D24 (log entries 9, 11). -/
def Obligations.FaultRecordsFetchAddressAndWord : Prop :=
  ∀ s t : State, s.mode = .run → step s = .next t → t.mode = .halt →
    t.err.pc = s.pc ∧ t.out.getLast? = some (.fatal t.err.kind t.err.pc t.err.op) ∧
    (0xFFE < s.pc.toNat → t.err.kind = .outOfBounds ∧ t.err.op = none ∧ t.pc = s.pc) ∧
    (s.pc.toNat ≤ 0xFFE → t.err.op = some (wordAtPc s) ∧ t.pc = s.pc + 2)

/-- R157, with the codes of R156: an instruction that halts the core raises its one kind of fault, and an instruction
with none never halts it. Codes and priority are the spec's own decisions D21, D23 (log entry 9). -/
def Obligations.EachInstructionHasOneFaultKind : Prop :=
  ∀ (i : Instr) (s t : State), s.mode ≠ .halt → exec i s = .next t → t.mode = .halt →
    (i = .ret ∧ t.err.kind.code = 3) ∨ (∃ nnn, i = .call nnn ∧ t.err.kind.code = 4) ∨
    (∃ nnn, i = .sys nnn ∧ t.err.kind.code = 2) ∨
    (((∃ x y n, i = .drw x y n) ∨ (∃ x, i = .ldBVx x) ∨ (∃ x, i = .ldMemVx x) ∨ ∃ x, i = .ldVxMem x) ∧
      t.err.kind.code = 5)

/-- R17: RUN becomes WAIT_KEY only by `Fx0A`, WAIT_KEY becomes RUN only by a key-press event and never HALT, and HALT
stays. What ends the wait is the spec's own decision D19 (log entry 24). -/
def Obligations.ModeTransitions : Prop :=
  ∀ s t : State, step s = .next t →
    (s.mode = .run → t.mode = .waitKey → ∃ x, Dispatches s (.ldVxK x)) ∧
    (s.mode = .waitKey → t.mode ≠ .halt ∧ (t.mode = .run ↔ (nextInput s).keyEvent ≠ none)) ∧
    (s.mode = .halt → t.mode = .halt)

/-- The V column of R24 with R11: a register an instruction does not list as written is unchanged, for every instruction;
`VF` is written as a flag by exactly the six forms of R11. -/
def Obligations.RegistersWrittenOnlyAsListed : Prop :=
  ∀ (i : Instr) (s t : State) (r : Reg), exec i s = .next t → t.reg r ≠ s.reg r →
    (∃ x nn, (i = .ldImm x nn ∨ i = .addImm x nn ∨ i = .rnd x nn) ∧ r = x) ∨
    (∃ x y, (i = .ldReg x y ∨ i = .orReg x y ∨ i = .andReg x y ∨ i = .xorReg x y) ∧ r = x) ∨
    (∃ x y, (i = .addReg x y ∨ i = .sub x y ∨ i = .subn x y ∨ i = .shr x y ∨ i = .shl x y) ∧ (r = x ∨ r = 0xF#4)) ∨
    (∃ x y n, i = .drw x y n ∧ r = 0xF#4) ∨
    (∃ x, i = .ldVxDt x ∧ r = x) ∨ (∃ x, i = .ldVxMem x ∧ r.toNat ≤ x.toNat)

/-- The I, PC, stack, timer and wait columns of R24 with R12 to R17: which instructions write each, over all of them; the
advance and the timer evaluation are not the instruction's. -/
def Obligations.SpecialRegistersWrittenOnlyAsListed : Prop :=
  ∀ (i : Instr) (s t : State), exec i s = .next t →
    (t.i ≠ s.i → (∃ nnn, i = .ldI nnn) ∨ (∃ x, i = .addIVx x) ∨ ∃ x, i = .ldFVx x) ∧
    (t.sp ≠ s.sp → (∃ nnn, i = .call nnn) ∨ i = .ret) ∧
    (t.stk ≠ s.stk → ∃ nnn, i = .call nnn) ∧
    (t.dt ≠ s.dt → ∃ x, i = .ldDtVx x) ∧
    (t.st ≠ s.st → ∃ x, i = .ldStVx x) ∧
    (t.wx ≠ s.wx → ∃ x, i = .ldVxK x) ∧
    (t.pc ≠ s.pc → i = .ret ∨ (∃ nnn, i = .jp nnn ∨ i = .call nnn ∨ i = .jpV0 nnn) ∨
      (∃ x nn, i = .seImm x nn ∨ i = .sneImm x nn) ∨ (∃ x y, i = .seReg x y ∨ i = .sneReg x y) ∨
      ∃ x, i = .skp x ∨ i = .sknp x)

/-- R39 and the Mem column of R24: the four instructions that write Memory and where; every other instruction leaves every
byte. -/
def Obligations.MemoryWrittenOnlyAsListed : Prop :=
  ∀ (i : Instr) (s t : State) (a : Nat), exec i s = .next t → t.byteAt a ≠ s.byteAt a → a ≤ 0xFFF ∧
    ((i = .cls ∧ 0xF00 ≤ a) ∨ (∃ x y n, i = .drw x y n ∧ 0xF00 ≤ a) ∨
    (∃ x, i = .ldBVx x ∧ effBase s ≤ a ∧ a ≤ effBase s + 2) ∨
    (∃ x, i = .ldMemVx x ∧ effBase s ≤ a ∧ a ≤ effBase s + x.toNat))

/-- The "read by" column of R8: the random byte reaches the core through `Cxnn` alone, the keys through `Ex9E` and
`ExA1` alone, the key event through the wait alone; two inputs that agree elsewhere give the same step. The input
record is the spec's own decision, D12, D17, D26 (log entry 1). -/
def Obligations.InputsReachTheCoreOnlyWhereRead : Prop :=
  ∀ (s : State) (inp inp' : Input) (rest : List Input), inp.k = inp'.k →
    ((∀ x nn, Dispatches { s with inputs := inp :: rest } (.rnd x nn) → inp.rnd = inp'.rnd) →
     (∀ x, Dispatches { s with inputs := inp :: rest } (.skp x) ∨ Dispatches { s with inputs := inp :: rest } (.sknp x) →
       inp.keys = inp'.keys) →
     (s.mode = .waitKey → inp.keyEvent = inp'.keyEvent) →
     s.mode ≠ .halt →
     step { s with inputs := inp :: rest } = step { s with inputs := inp' :: rest })
end

