-- ==== Sys2Proof/Laws/Memory.lean ====
section
/-! SUPPORT. The laws of Memory: what a read sees after a write, and that every write keeps the canonical form. -/

namespace Sys2Proof.Machine

open Sys2Proof

theorem Memory.read_put_same (a : Nat) (x : Byte) (m : Memory) (h : Memory.read m a = 0x00#8) :
    Memory.read (Memory.put a x m) a = x := by
  unfold Memory.put
  split <;> simp_all [Memory.read]

theorem Memory.read_put_other (a b : Nat) (x : Byte) (m : Memory) (h : a ≠ b) :
    Memory.read (Memory.put b x m) a = Memory.read m a := by
  unfold Memory.put
  split <;> simp_all [Memory.read]

theorem Memory.wfFrom_mono {lo lo' : Nat} (h : lo' ≤ lo) : ∀ {m : Memory}, Memory.wfFrom lo m = true →
    Memory.wfFrom lo' m = true
  | [], _ => rfl
  | (a, x) :: m, hm => by
    simp only [Memory.wfFrom, Bool.and_eq_true, decide_eq_true_eq] at hm ⊢
    exact ⟨⟨⟨by omega, hm.1.1.2⟩, hm.1.2⟩, hm.2⟩

/-- An address below the first listed one reads as an unlisted byte. -/
theorem Memory.read_below : ∀ {lo : Nat} {m : Memory} {a : Nat}, Memory.wfFrom lo m = true → a < lo →
    Memory.read m a = 0x00#8
  | _, [], _, _, _ => rfl
  | lo, (b, w) :: m, a, hm, ha => by
    simp only [Memory.wfFrom, Bool.and_eq_true, decide_eq_true_eq] at hm
    have : a ≠ b := by omega
    simp only [Memory.read, this, if_false]
    exact Memory.read_below hm.2 (by omega)

/-- An address outside Memory reads as 0, for nothing is listed there. -/
theorem Memory.read_outside : ∀ {lo : Nat} {m : Memory} {a : Nat}, Memory.wfFrom lo m = true → Config.memSize ≤ a →
    Memory.read m a = 0x00#8
  | _, [], _, _, _ => rfl
  | lo, (b, w) :: m, a, hm, ha => by
    simp only [Memory.wfFrom, Bool.and_eq_true, decide_eq_true_eq] at hm
    have : a ≠ b := by omega
    simp only [Memory.read, this, if_false]
    exact Memory.read_outside hm.2 ha

theorem Memory.read_write_other : ∀ (m : Memory) (a b : Nat) (x : Byte), a ≠ b →
    Memory.read (Memory.write m b x) a = Memory.read m a
  | [], a, b, x, h => Memory.read_put_other a b x [] h
  | (c, w) :: m, a, b, x, h => by
    unfold Memory.write
    split
    · exact Memory.read_put_other a b x _ h
    · split
      · rename_i hbc
        rw [Memory.read_put_other a b x _ h]
        simp [Memory.read, show a ≠ c by omega]
      · simp only [Memory.read, Memory.read_write_other m a b x h]

theorem Memory.read_write_same_from : ∀ (m : Memory) (lo a : Nat) (x : Byte), Memory.wfFrom lo m = true →
    Memory.read (Memory.write m a x) a = x
  | [], _, a, x, _ => Memory.read_put_same a x [] rfl
  | (c, w) :: m, lo, a, x, hm => by
    have hm' := hm
    simp only [Memory.wfFrom, Bool.and_eq_true, decide_eq_true_eq] at hm
    unfold Memory.write
    split
    · refine Memory.read_put_same a x _ ?_
      simp only [Memory.read, show a ≠ c by omega, if_false]
      exact Memory.read_below hm.2 (by omega)
    · split
      · exact Memory.read_put_same a x _ (Memory.read_below hm.2 (by omega))
      · rename_i h1 h2
        simp only [Memory.read, h2, if_false]
        exact Memory.read_write_same_from m (c + 1) a x hm.2

theorem Memory.put_wfFrom {lo a : Nat} {x : Byte} {m : Memory} (h : Memory.wfFrom (a + 1) m = true) (hlo : lo ≤ a)
    (ha : a < Config.memSize) : Memory.wfFrom lo (Memory.put a x m) = true := by
  unfold Memory.put
  split
  · exact Memory.wfFrom_mono (by omega) h
  · simp_all [Memory.wfFrom]

theorem Memory.write_wfFrom : ∀ (m : Memory) (lo a : Nat) (x : Byte), Memory.wfFrom lo m = true → lo ≤ a →
    a < Config.memSize → Memory.wfFrom lo (Memory.write m a x) = true
  | [], _, _, _, _, hlo, ha => Memory.put_wfFrom rfl hlo ha
  | (c, w) :: m, lo, a, x, hm, hlo, ha => by
    have hm' := hm
    simp only [Memory.wfFrom, Bool.and_eq_true, decide_eq_true_eq] at hm
    unfold Memory.write
    split
    · refine Memory.put_wfFrom ?_ hlo ha
      simp only [Memory.wfFrom, Bool.and_eq_true, decide_eq_true_eq]
      exact ⟨⟨⟨by omega, hm.1.1.2⟩, hm.1.2⟩, hm.2⟩
    · split
      · exact Memory.put_wfFrom (Memory.wfFrom_mono (by omega) hm.2) hlo ha
      · simp only [Memory.wfFrom, Bool.and_eq_true, decide_eq_true_eq]
        exact ⟨⟨⟨hm.1.1.1, hm.1.1.2⟩, hm.1.2⟩, Memory.write_wfFrom m (c + 1) a x hm.2 (by omega) ha⟩

/-- A write inside Memory keeps the canonical form. -/
theorem Memory.write_wf {m : Memory} {a : Nat} {x : Byte} (h : Memory.wf m = true) (ha : a < Config.memSize) :
    Memory.wf (Memory.write m a x) = true :=
  Memory.write_wfFrom m 0 a x h (by omega) ha

/-- A read of the written address sees the written byte. -/
theorem Memory.read_write_same {m : Memory} (h : Memory.wf m = true) (a : Nat) (x : Byte) :
    Memory.read (Memory.write m a x) a = x :=
  Memory.read_write_same_from m 0 a x h

/-- What a write does to every read, in one equation. -/
theorem Memory.read_write {m : Memory} (h : Memory.wf m = true) (a b : Nat) (x : Byte) :
    Memory.read (Memory.write m b x) a = if a = b then x else Memory.read m a := by
  split
  · rename_i hab
    rw [hab, Memory.read_write_same h]
  · exact Memory.read_write_other m a b x ‹_›

/-- A canonical memory reads what its first entry lists there. -/
theorem Memory.ext_from : ∀ (m m' : Memory) (lo : Nat), Memory.wfFrom lo m = true → Memory.wfFrom lo m' = true →
    (∀ a, Memory.read m a = Memory.read m' a) → m = m'
  | [], [], _, _, _, _ => rfl
  | [], (b, w) :: m', _, _, hm', h => by
    simp only [Memory.wfFrom, Bool.and_eq_true, decide_eq_true_eq] at hm'
    exact absurd (by simpa [Memory.read] using (h b).symm) hm'.1.2
  | (b, w) :: m, [], _, hm, _, h => by
    simp only [Memory.wfFrom, Bool.and_eq_true, decide_eq_true_eq] at hm
    exact absurd (by simpa [Memory.read] using h b) hm.1.2
  | (b, w) :: m, (c, u) :: m', _, hm, hm', h => by
    simp only [Memory.wfFrom, Bool.and_eq_true, decide_eq_true_eq] at hm hm'
    have hbc : b = c := by
      by_contra hne
      rcases Nat.lt_or_gt_of_ne hne with hlt | hlt
      · have hb := h b
        simp only [Memory.read, if_true, hne, if_false] at hb
        rw [Memory.read_below hm'.2 (by omega)] at hb
        exact hm.1.2 hb
      · have hc := h c
        simp only [Memory.read, if_true, Ne.symm hne, if_false] at hc
        rw [Memory.read_below hm.2 (by omega)] at hc
        exact hm'.1.2 hc.symm
    subst hbc
    have hw : w = u := by simpa [Memory.read] using h b
    subst hw
    have : m = m' := by
      refine Memory.ext_from m m' (b + 1) hm.2 hm'.2 fun a => ?_
      by_cases hab : a = b
      · subst hab
        rw [Memory.read_below hm.2 (by omega), Memory.read_below hm'.2 (by omega)]
      · simpa [Memory.read, hab] using h a
    rw [this]

/-- Canonical memories that read alike are equal data. -/
theorem Memory.ext_read {m m' : Memory} (h : Memory.wf m = true) (h' : Memory.wf m' = true)
    (hr : ∀ a, Memory.read m a = Memory.read m' a) : m = m' :=
  Memory.ext_from m m' 0 h h' hr

end Sys2Proof.Machine
end

