-- ==== Sys2Proof/Laws/State.lean ====
section
/-! SUPPORT. One lemma per field per update of the state, so that no proof unfolds a record update; the accessors over
the updates; and the three conditional updates (skip, the input record, the timers) as one plain update each. -/

namespace Sys2Proof.Machine

open Sys2Proof

@[simp] theorem State.setReg_v (s : State) (x : Reg) (b : Byte) : (s.setReg x b).v = s.v.set x.toNat b x.isLt := rfl
@[simp] theorem State.setReg_i (s : State) (x : Reg) (b : Byte) : (s.setReg x b).i = s.i := rfl
@[simp] theorem State.setReg_pc (s : State) (x : Reg) (b : Byte) : (s.setReg x b).pc = s.pc := rfl
@[simp] theorem State.setReg_dt (s : State) (x : Reg) (b : Byte) : (s.setReg x b).dt = s.dt := rfl
@[simp] theorem State.setReg_st (s : State) (x : Reg) (b : Byte) : (s.setReg x b).st = s.st := rfl
@[simp] theorem State.setReg_sp (s : State) (x : Reg) (b : Byte) : (s.setReg x b).sp = s.sp := rfl
@[simp] theorem State.setReg_stk (s : State) (x : Reg) (b : Byte) : (s.setReg x b).stk = s.stk := rfl
@[simp] theorem State.setReg_mode (s : State) (x : Reg) (b : Byte) : (s.setReg x b).mode = s.mode := rfl
@[simp] theorem State.setReg_wx (s : State) (x : Reg) (b : Byte) : (s.setReg x b).wx = s.wx := rfl
@[simp] theorem State.setReg_err (s : State) (x : Reg) (b : Byte) : (s.setReg x b).err = s.err := rfl
@[simp] theorem State.setReg_mem (s : State) (x : Reg) (b : Byte) : (s.setReg x b).mem = s.mem := rfl
@[simp] theorem State.setReg_cfg (s : State) (x : Reg) (b : Byte) : (s.setReg x b).cfg = s.cfg := rfl
@[simp] theorem State.setReg_inputs (s : State) (x : Reg) (b : Byte) : (s.setReg x b).inputs = s.inputs := rfl
@[simp] theorem State.setReg_freeUsed (s : State) (x : Reg) (b : Byte) : (s.setReg x b).freeUsed = s.freeUsed := rfl
@[simp] theorem State.setReg_out (s : State) (x : Reg) (b : Byte) : (s.setReg x b).out = s.out := rfl

@[simp] theorem State.setPc_v (s : State) (w : Word) : (s.setPc w).v = s.v := rfl
@[simp] theorem State.setPc_i (s : State) (w : Word) : (s.setPc w).i = s.i := rfl
@[simp] theorem State.setPc_pc (s : State) (w : Word) : (s.setPc w).pc = w := rfl
@[simp] theorem State.setPc_dt (s : State) (w : Word) : (s.setPc w).dt = s.dt := rfl
@[simp] theorem State.setPc_st (s : State) (w : Word) : (s.setPc w).st = s.st := rfl
@[simp] theorem State.setPc_sp (s : State) (w : Word) : (s.setPc w).sp = s.sp := rfl
@[simp] theorem State.setPc_stk (s : State) (w : Word) : (s.setPc w).stk = s.stk := rfl
@[simp] theorem State.setPc_mode (s : State) (w : Word) : (s.setPc w).mode = s.mode := rfl
@[simp] theorem State.setPc_wx (s : State) (w : Word) : (s.setPc w).wx = s.wx := rfl
@[simp] theorem State.setPc_err (s : State) (w : Word) : (s.setPc w).err = s.err := rfl
@[simp] theorem State.setPc_mem (s : State) (w : Word) : (s.setPc w).mem = s.mem := rfl
@[simp] theorem State.setPc_cfg (s : State) (w : Word) : (s.setPc w).cfg = s.cfg := rfl
@[simp] theorem State.setPc_inputs (s : State) (w : Word) : (s.setPc w).inputs = s.inputs := rfl
@[simp] theorem State.setPc_freeUsed (s : State) (w : Word) : (s.setPc w).freeUsed = s.freeUsed := rfl
@[simp] theorem State.setPc_out (s : State) (w : Word) : (s.setPc w).out = s.out := rfl

@[simp] theorem State.setI_v (s : State) (w : Word) : (s.setI w).v = s.v := rfl
@[simp] theorem State.setI_i (s : State) (w : Word) : (s.setI w).i = w := rfl
@[simp] theorem State.setI_pc (s : State) (w : Word) : (s.setI w).pc = s.pc := rfl
@[simp] theorem State.setI_dt (s : State) (w : Word) : (s.setI w).dt = s.dt := rfl
@[simp] theorem State.setI_st (s : State) (w : Word) : (s.setI w).st = s.st := rfl
@[simp] theorem State.setI_sp (s : State) (w : Word) : (s.setI w).sp = s.sp := rfl
@[simp] theorem State.setI_stk (s : State) (w : Word) : (s.setI w).stk = s.stk := rfl
@[simp] theorem State.setI_mode (s : State) (w : Word) : (s.setI w).mode = s.mode := rfl
@[simp] theorem State.setI_wx (s : State) (w : Word) : (s.setI w).wx = s.wx := rfl
@[simp] theorem State.setI_err (s : State) (w : Word) : (s.setI w).err = s.err := rfl
@[simp] theorem State.setI_mem (s : State) (w : Word) : (s.setI w).mem = s.mem := rfl
@[simp] theorem State.setI_cfg (s : State) (w : Word) : (s.setI w).cfg = s.cfg := rfl
@[simp] theorem State.setI_inputs (s : State) (w : Word) : (s.setI w).inputs = s.inputs := rfl
@[simp] theorem State.setI_freeUsed (s : State) (w : Word) : (s.setI w).freeUsed = s.freeUsed := rfl
@[simp] theorem State.setI_out (s : State) (w : Word) : (s.setI w).out = s.out := rfl

@[simp] theorem State.setByte_v (s : State) (a : Nat) (b : Byte) : (s.setByte a b).v = s.v := rfl
@[simp] theorem State.setByte_i (s : State) (a : Nat) (b : Byte) : (s.setByte a b).i = s.i := rfl
@[simp] theorem State.setByte_pc (s : State) (a : Nat) (b : Byte) : (s.setByte a b).pc = s.pc := rfl
@[simp] theorem State.setByte_dt (s : State) (a : Nat) (b : Byte) : (s.setByte a b).dt = s.dt := rfl
@[simp] theorem State.setByte_st (s : State) (a : Nat) (b : Byte) : (s.setByte a b).st = s.st := rfl
@[simp] theorem State.setByte_sp (s : State) (a : Nat) (b : Byte) : (s.setByte a b).sp = s.sp := rfl
@[simp] theorem State.setByte_stk (s : State) (a : Nat) (b : Byte) : (s.setByte a b).stk = s.stk := rfl
@[simp] theorem State.setByte_mode (s : State) (a : Nat) (b : Byte) : (s.setByte a b).mode = s.mode := rfl
@[simp] theorem State.setByte_wx (s : State) (a : Nat) (b : Byte) : (s.setByte a b).wx = s.wx := rfl
@[simp] theorem State.setByte_err (s : State) (a : Nat) (b : Byte) : (s.setByte a b).err = s.err := rfl
@[simp] theorem State.setByte_mem (s : State) (a : Nat) (b : Byte) : (s.setByte a b).mem = Memory.write s.mem a b := rfl
@[simp] theorem State.setByte_cfg (s : State) (a : Nat) (b : Byte) : (s.setByte a b).cfg = s.cfg := rfl
@[simp] theorem State.setByte_inputs (s : State) (a : Nat) (b : Byte) : (s.setByte a b).inputs = s.inputs := rfl
@[simp] theorem State.setByte_freeUsed (s : State) (a : Nat) (b : Byte) : (s.setByte a b).freeUsed = s.freeUsed := rfl
@[simp] theorem State.setByte_out (s : State) (a : Nat) (b : Byte) : (s.setByte a b).out = s.out := rfl

@[simp] theorem emit_v (s : State) (e : Event) : (emit e s).v = s.v := rfl
@[simp] theorem emit_i (s : State) (e : Event) : (emit e s).i = s.i := rfl
@[simp] theorem emit_pc (s : State) (e : Event) : (emit e s).pc = s.pc := rfl
@[simp] theorem emit_dt (s : State) (e : Event) : (emit e s).dt = s.dt := rfl
@[simp] theorem emit_st (s : State) (e : Event) : (emit e s).st = s.st := rfl
@[simp] theorem emit_sp (s : State) (e : Event) : (emit e s).sp = s.sp := rfl
@[simp] theorem emit_stk (s : State) (e : Event) : (emit e s).stk = s.stk := rfl
@[simp] theorem emit_mode (s : State) (e : Event) : (emit e s).mode = s.mode := rfl
@[simp] theorem emit_wx (s : State) (e : Event) : (emit e s).wx = s.wx := rfl
@[simp] theorem emit_err (s : State) (e : Event) : (emit e s).err = s.err := rfl
@[simp] theorem emit_mem (s : State) (e : Event) : (emit e s).mem = s.mem := rfl
@[simp] theorem emit_cfg (s : State) (e : Event) : (emit e s).cfg = s.cfg := rfl
@[simp] theorem emit_inputs (s : State) (e : Event) : (emit e s).inputs = s.inputs := rfl
@[simp] theorem emit_freeUsed (s : State) (e : Event) : (emit e s).freeUsed = s.freeUsed := rfl
@[simp] theorem emit_out (s : State) (e : Event) : (emit e s).out = s.out ++ [e] := rfl

@[simp] theorem raise_v (s : State) (k : Fault) (a : Word) (op : Option Word) : (raise k a op s).v = s.v := rfl
@[simp] theorem raise_i (s : State) (k : Fault) (a : Word) (op : Option Word) : (raise k a op s).i = s.i := rfl
@[simp] theorem raise_pc (s : State) (k : Fault) (a : Word) (op : Option Word) : (raise k a op s).pc = s.pc := rfl
@[simp] theorem raise_dt (s : State) (k : Fault) (a : Word) (op : Option Word) : (raise k a op s).dt = s.dt := rfl
@[simp] theorem raise_st (s : State) (k : Fault) (a : Word) (op : Option Word) : (raise k a op s).st = s.st := rfl
@[simp] theorem raise_sp (s : State) (k : Fault) (a : Word) (op : Option Word) : (raise k a op s).sp = s.sp := rfl
@[simp] theorem raise_stk (s : State) (k : Fault) (a : Word) (op : Option Word) : (raise k a op s).stk = s.stk := rfl
@[simp] theorem raise_mode (s : State) (k : Fault) (a : Word) (op : Option Word) : (raise k a op s).mode = .halt := rfl
@[simp] theorem raise_wx (s : State) (k : Fault) (a : Word) (op : Option Word) : (raise k a op s).wx = s.wx := rfl
@[simp] theorem raise_err (s : State) (k : Fault) (a : Word) (op : Option Word) : (raise k a op s).err = { kind := k, pc := a, op := op } := rfl
@[simp] theorem raise_mem (s : State) (k : Fault) (a : Word) (op : Option Word) : (raise k a op s).mem = s.mem := rfl
@[simp] theorem raise_cfg (s : State) (k : Fault) (a : Word) (op : Option Word) : (raise k a op s).cfg = s.cfg := rfl
@[simp] theorem raise_inputs (s : State) (k : Fault) (a : Word) (op : Option Word) : (raise k a op s).inputs = s.inputs := rfl
@[simp] theorem raise_freeUsed (s : State) (k : Fault) (a : Word) (op : Option Word) : (raise k a op s).freeUsed = s.freeUsed := rfl
@[simp] theorem raise_out (s : State) (k : Fault) (a : Word) (op : Option Word) : (raise k a op s).out = s.out ++ [.fatal k a op] := rfl

@[simp] theorem advance_v (s : State) : (advance s).v = s.v := rfl
@[simp] theorem advance_i (s : State) : (advance s).i = s.i := rfl
@[simp] theorem advance_pc (s : State) : (advance s).pc = s.pc + 2 := rfl
@[simp] theorem advance_dt (s : State) : (advance s).dt = s.dt := rfl
@[simp] theorem advance_st (s : State) : (advance s).st = s.st := rfl
@[simp] theorem advance_sp (s : State) : (advance s).sp = s.sp := rfl
@[simp] theorem advance_stk (s : State) : (advance s).stk = s.stk := rfl
@[simp] theorem advance_mode (s : State) : (advance s).mode = s.mode := rfl
@[simp] theorem advance_wx (s : State) : (advance s).wx = s.wx := rfl
@[simp] theorem advance_err (s : State) : (advance s).err = s.err := rfl
@[simp] theorem advance_mem (s : State) : (advance s).mem = s.mem := rfl
@[simp] theorem advance_cfg (s : State) : (advance s).cfg = s.cfg := rfl
@[simp] theorem advance_inputs (s : State) : (advance s).inputs = s.inputs := rfl
@[simp] theorem advance_freeUsed (s : State) : (advance s).freeUsed = s.freeUsed := rfl
@[simp] theorem advance_out (s : State) : (advance s).out = s.out := rfl

/-! ### The accessors -/

/-- A read of a register after a write of one: the sixteen are independent (R10). -/
@[simp] theorem State.reg_setReg (s : State) (x r : Reg) (b : Byte) :
    (s.setReg x b).reg r = if r = x then b else s.reg r := by
  simp [State.reg, State.setReg, Vector.getElem_set, BitVec.toNat_inj, eq_comm]

/-- A register read depends on the register file alone. -/
theorem State.reg_congr {s t : State} (h : t.v = s.v) (r : Reg) : t.reg r = s.reg r := by
  unfold State.reg
  simp only [h]

/-- Registers that read alike are equal data. -/
theorem State.v_ext {s t : State} (h : ∀ r : Reg, t.reg r = s.reg r) : t.v = s.v := by
  refine Vector.ext fun j hj => ?_
  have := h (BitVec.ofNat 4 j)
  simpa [State.reg, Nat.mod_eq_of_lt hj] using this

/-- A byte read depends on the memory alone. -/
theorem State.byteAt_congr {s t : State} (h : t.mem = s.mem) (a : Nat) : t.byteAt a = s.byteAt a := by
  simp only [State.byteAt, h]

@[simp] theorem State.reg_setPc (s : State) (w : Word) (r : Reg) : (s.setPc w).reg r = s.reg r := rfl
@[simp] theorem State.reg_setI (s : State) (w : Word) (r : Reg) : (s.setI w).reg r = s.reg r := rfl
@[simp] theorem State.reg_setByte (s : State) (a : Nat) (b : Byte) (r : Reg) : (s.setByte a b).reg r = s.reg r := rfl
@[simp] theorem State.reg_emit (s : State) (e : Event) (r : Reg) : (emit e s).reg r = s.reg r := rfl
@[simp] theorem State.reg_raise (s : State) (k : Fault) (a : Word) (op : Option Word) (r : Reg) :
    (raise k a op s).reg r = s.reg r := rfl
@[simp] theorem State.byteAt_setReg (s : State) (x : Reg) (b : Byte) (a : Nat) :
    (s.setReg x b).byteAt a = s.byteAt a := rfl
@[simp] theorem State.byteAt_setPc (s : State) (w : Word) (a : Nat) : (s.setPc w).byteAt a = s.byteAt a := rfl
@[simp] theorem State.byteAt_setI (s : State) (w : Word) (a : Nat) : (s.setI w).byteAt a = s.byteAt a := rfl
@[simp] theorem State.byteAt_emit (s : State) (e : Event) (a : Nat) : (emit e s).byteAt a = s.byteAt a := rfl
@[simp] theorem State.byteAt_raise (s : State) (k : Fault) (w : Word) (op : Option Word) (a : Nat) :
    (raise k w op s).byteAt a = s.byteAt a := rfl

/-- A byte read after a byte write, in a canonical memory. -/
theorem State.byteAt_setByte {s : State} (h : Memory.wf s.mem = true) (a b : Nat) (x : Byte) :
    (s.setByte b x).byteAt a = if a = b then x else s.byteAt a :=
  Memory.read_write h a b x

/-- A byte read after a write of another byte, in any memory. -/
theorem State.byteAt_setByte_other (s : State) {a b : Nat} (x : Byte) (h : a ≠ b) :
    (s.setByte b x).byteAt a = s.byteAt a :=
  Memory.read_write_other s.mem a b x h

/-! ### The conditional updates as plain ones -/

/-- A skip writes `PC` alone (R95). -/
theorem skipIf_eq (c : Bool) (s : State) : skipIf c s = s.setPc (if c then s.pc + 2 else s.pc) := by
  cases c <;> rfl

/-- The used-up input record: nothing of the core changes. -/
theorem popInput_eq (s : State) :
    popInput s = { s with inputs := s.inputs.tail, freeUsed := s.freeUsed + if s.inputs = [] then 1 else 0 } := by
  rcases s with ⟨v, i, pc, dt, st, sp, stk, mode, wx, err, mem, cfg, _ | ⟨inp, rest⟩, fu, out⟩ <;> rfl

/-- The timer subsystem writes `DT`, `ST` and the trace alone (R161). -/
theorem timerEval_eq (k : Nat) (s : State) :
    timerEval k s = { s with
      dt := countdown s.dt k
      st := countdown s.st k
      out := s.out ++ if s.st ≠ 0x00#8 ∧ countdown s.st k = 0x00#8 then [.audioStop] else [] } := by
  unfold timerEval
  by_cases h : s.st ≠ 0x00#8 ∧ countdown s.st k = 0x00#8
  · simp only [if_pos h]
    rfl
  · simp only [if_neg h, List.append_nil]

/-- A timer falls by `k` and stops at 0 (R161). -/
theorem countdown_toNat (t : Byte) (k : Nat) : (countdown t k).toNat = t.toNat - min t.toNat k := by
  unfold countdown
  have := t.isLt
  split
  · simp_all
  · rw [BitVec.toNat_ofNat]
    omega

/-- The fault of an instruction is `raise` at the address before `PC` with the instruction's word. -/
theorem raiseBy_eq (i : Instr) (k : Fault) (s : State) :
    raiseBy i k s = raise k (s.pc - 2) (some (encodeWord i)) s := rfl

/-- A push that finds room (R16). -/
theorem push_eq_some {w : Word} {s : State} (h : s.sp.val < 16) :
    push w s = some { s with stk := s.stk.set s.sp.val w h, sp := ⟨s.sp.val + 1, Nat.succ_lt_succ h⟩ } :=
  dif_pos h

/-- A push on a full stack. -/
theorem push_eq_none {w : Word} {s : State} (h : ¬ s.sp.val < 16) : push w s = none := dif_neg h

/-- A pop that finds an entry (R16). -/
theorem pop_eq_some {s : State} (h : s.sp.val ≠ 0) :
    pop s = some (s.stkAt (s.sp.val - 1) (by have := s.sp.isLt; omega),
      { s with sp := ⟨s.sp.val - 1, by have := s.sp.isLt; omega⟩ }) :=
  dif_neg h

/-- A pop of an empty stack. -/
theorem pop_eq_none {s : State} (h : s.sp.val = 0) : pop s = none := dif_pos h

/-- The step's input record depends on the environment's fields alone. -/
theorem nextInput_congr {s t : State} (h : t.inputs = s.inputs) (h' : t.freeUsed = s.freeUsed) :
    nextInput t = nextInput s := by
  simp only [nextInput, h, h']

end Sys2Proof.Machine
end

