-- ==== Sys2Proof/Laws/Access.lean ====
section
/-! SUPPORT. The runs of byte accesses (R120) said once: a run of stores is `loadBytes` on the memory, a run of loads
fills the listed registers, and each stops at the first address out of bounds with what came before it done. -/

namespace Sys2Proof.Machine

open Sys2Proof

/-! ### Runs of stores -/

theorem loadBytes_wf : ∀ (xs : List Byte) (a : Nat) (m : Memory), Memory.wf m = true → a + xs.length ≤ Config.memSize →
    Memory.wf (loadBytes xs a m) = true
  | [], _, _, h, _ => h
  | x :: xs, a, m, h, ha => by
    simp only [List.length_cons] at ha
    exact loadBytes_wf xs (a + 1) _ (Memory.write_wf h (by omega)) (by omega)

/-- What a read sees after bytes were copied in: the copied byte inside the range, the old one outside. -/
theorem read_loadBytes : ∀ (xs : List Byte) (a : Nat) (m : Memory), Memory.wf m = true →
    a + xs.length ≤ Config.memSize → ∀ b,
    Memory.read (loadBytes xs a m) b = if h : a ≤ b ∧ b - a < xs.length then xs[b - a]'h.2 else Memory.read m b
  | [], _, _, _, _, b => by simp [loadBytes]
  | x :: xs, a, m, h, ha, b => by
    simp only [List.length_cons] at ha
    rw [loadBytes, read_loadBytes xs (a + 1) _ (Memory.write_wf h (by omega)) (by omega) b, Memory.read_write h]
    by_cases hb : b = a
    · subst hb
      simp
    · by_cases hlt : a + 1 ≤ b ∧ b - (a + 1) < xs.length
      · have h2 : a ≤ b ∧ b - a < (x :: xs).length := ⟨by omega, by simp only [List.length_cons]; omega⟩
        rw [dif_pos hlt, dif_pos h2]
        have e : b - a = (b - (a + 1)) + 1 := by omega
        simp only [e, List.getElem_cons_succ]
      · have h2 : ¬ (a ≤ b ∧ b - a < (x :: xs).length) := by simp only [List.length_cons]; omega
        rw [dif_neg hlt, dif_neg h2, if_neg hb]

/-- Bytes outside the copied range read as before, in any memory. -/
theorem read_loadBytes_other : ∀ (xs : List Byte) (a : Nat) (m : Memory) (b : Nat), ¬ (a ≤ b ∧ b - a < xs.length) →
    Memory.read (loadBytes xs a m) b = Memory.read m b
  | [], _, _, _, _ => rfl
  | x :: xs, a, m, b, h => by
    simp only [List.length_cons] at h
    rw [loadBytes, read_loadBytes_other xs (a + 1) _ b (by omega), Memory.read_write_other _ _ _ _ (by omega)]

/-- A run of stores that stays in bounds completes and changes Memory alone. -/
theorem storeRun_ok : ∀ (xs : List Byte) (a : Nat) (s : State), a + xs.length ≤ Config.memSize →
    storeRun xs a s = .ok { s with mem := loadBytes xs a s.mem }
  | [], _, _, _ => rfl
  | x :: xs, a, s, h => by
    simp only [List.length_cons] at h
    have ha : a < Config.memSize := by omega
    simp only [storeRun, memWrite, ha, if_true]
    rw [storeRun_ok xs (a + 1) _ (by omega)]
    rfl

/-- A run of stores that leaves Memory stops there, the bytes before it stored (R120). -/
theorem storeRun_error : ∀ (xs : List Byte) (a : Nat) (s : State), xs ≠ [] → Config.memSize < a + xs.length →
    storeRun xs a s = .error { s with mem := loadBytes (xs.take (Config.memSize - a)) a s.mem }
  | [], _, _, h, _ => absurd rfl h
  | x :: xs, a, s, _, h => by
    simp only [List.length_cons] at h
    by_cases ha : a < Config.memSize
    · simp only [storeRun, memWrite, ha, if_true]
      have hne : xs ≠ [] := by
        rintro rfl
        simp only [List.length_nil] at h
        omega
      rw [storeRun_error xs (a + 1) _ hne (by omega)]
      have e : Config.memSize - a = (Config.memSize - (a + 1)) + 1 := by omega
      rw [e, List.take_succ_cons]
      rfl
    · have e : Config.memSize - a = 0 := by omega
      simp only [storeRun, memWrite, ha, if_false, e, List.take_zero]
      rfl

/-- Every state a run of stores can stop in differs in Memory alone, and its memory keeps the canonical form. -/
theorem storeRun_cases (xs : List Byte) (a : Nat) (s : State) :
    ∃ m, (storeRun xs a s = .ok { s with mem := m } ∨ storeRun xs a s = .error { s with mem := m }) ∧
      (Memory.wf s.mem = true → Memory.wf m = true) := by
  induction xs generalizing a s with
  | nil => exact ⟨s.mem, .inl rfl, id⟩
  | cons x xs ih =>
    by_cases ha : a < Config.memSize
    · obtain ⟨m, hm, hwf⟩ := ih (a + 1) (s.setByte a x)
      refine ⟨m, ?_, fun h => hwf (Memory.write_wf h ha)⟩
      simp only [storeRun, memWrite, ha, if_true]
      exact hm
    · refine ⟨s.mem, .inr ?_, id⟩
      simp only [storeRun, memWrite, ha, if_false]

/-! ### Runs of loads -/

/-- A run of loads that stays in bounds completes, changes the register file alone, leaves every unlisted register, and
fills each listed one from its address. -/
theorem loadRun_ok : ∀ (rs : List Reg) (a : Nat) (s : State), a + rs.length ≤ Config.memSize →
    ∃ t, loadRun rs a s = .ok t ∧ t = { s with v := t.v } ∧ (∀ r, r ∉ rs → t.reg r = s.reg r) ∧
      (rs.Nodup → ∀ (j : Nat) (h : j < rs.length), t.reg rs[j] = s.byteAt (a + j))
  | [], _, s, _ => ⟨s, rfl, rfl, fun _ _ => rfl, fun _ _ h => absurd h (Nat.not_lt_zero _)⟩
  | r :: rs, a, s, h => by
    simp only [List.length_cons] at h
    have ha : a < Config.memSize := by omega
    obtain ⟨t, ht, hv, hother, hload⟩ := loadRun_ok rs (a + 1) (s.setReg r (s.byteAt a)) (by omega)
    refine ⟨t, ?_, hv, ?_, ?_⟩
    · simp only [loadRun, memRead, ha, if_true]
      exact ht
    · intro q hq
      simp only [List.mem_cons, not_or] at hq
      rw [hother q hq.2, State.reg_setReg, if_neg hq.1]
    · intro hnd j hj
      obtain ⟨hr, hnd'⟩ := List.nodup_cons.mp hnd
      cases j with
      | zero =>
        simp only [List.getElem_cons_zero, Nat.add_zero]
        rw [hother r hr, State.reg_setReg, if_pos rfl]
      | succ j =>
        simp only [List.length_cons, Nat.add_lt_add_iff_right] at hj
        simp only [List.getElem_cons_succ]
        rw [hload hnd' j hj, State.byteAt_setReg]
        congr 1
        omega

/-- A run of loads that leaves Memory stops where the run over the registers in bounds ends. -/
theorem loadRun_error : ∀ (rs : List Reg) (a : Nat) (s : State), rs ≠ [] → Config.memSize < a + rs.length →
    ∃ t, loadRun rs a s = .error t ∧ loadRun (rs.take (Config.memSize - a)) a s = .ok t
  | [], _, _, h, _ => absurd rfl h
  | r :: rs, a, s, _, h => by
    simp only [List.length_cons] at h
    by_cases ha : a < Config.memSize
    · have hne : rs ≠ [] := by
        rintro rfl
        simp only [List.length_nil] at h
        omega
      obtain ⟨t, ht, ht'⟩ := loadRun_error rs (a + 1) (s.setReg r (s.byteAt a)) hne (by omega)
      have e : Config.memSize - a = (Config.memSize - (a + 1)) + 1 := by omega
      refine ⟨t, ?_, ?_⟩
      · simp only [loadRun, memRead, ha, if_true]
        exact ht
      · rw [e, List.take_succ_cons]
        simp only [loadRun, memRead, ha, if_true]
        exact ht'
    · have e : Config.memSize - a = 0 := by omega
      refine ⟨s, ?_, ?_⟩
      · simp only [loadRun, memRead, ha, if_false]
      · rw [e, List.take_zero]
        rfl

/-- Every state a run of loads can stop in differs in the register file alone. -/
theorem loadRun_cases (rs : List Reg) (a : Nat) (s : State) :
    ∃ w, loadRun rs a s = .ok { s with v := w } ∨ loadRun rs a s = .error { s with v := w } := by
  induction rs generalizing a s with
  | nil => exact ⟨s.v, .inl rfl⟩
  | cons r rs ih =>
    by_cases ha : a < Config.memSize
    · obtain ⟨w, hw⟩ := ih (a + 1) (s.setReg r (s.byteAt a))
      refine ⟨w, ?_⟩
      simp only [loadRun, memRead, ha, if_true]
      exact hw
    · refine ⟨s.v, .inr ?_⟩
      simp only [loadRun, memRead, ha, if_false]

/-! ### The registers `V0` to `V[x]` -/

@[simp] theorem regsTo_length (x : Reg) : (regsTo x).length = x.toNat + 1 := by simp [regsTo]

theorem regsTo_getElem (x : Reg) (j : Nat) (h : j < (regsTo x).length) : (regsTo x)[j] = BitVec.ofNat 4 j := by
  simp [regsTo]

theorem mem_regsTo (x r : Reg) : r ∈ regsTo x ↔ r.toNat ≤ x.toNat := by
  have hx := x.isLt
  simp only [regsTo, List.mem_map, List.mem_range]
  constructor
  · rintro ⟨j, hj, rfl⟩
    rw [BitVec.toNat_ofNat, Nat.mod_eq_of_lt (by omega)]
    omega
  · intro h
    exact ⟨r.toNat, by omega, by simp⟩

theorem regsTo_nodup (x : Reg) : (regsTo x).Nodup := by
  have hx := x.isLt
  refine List.Nodup.map_on ?_ List.nodup_range
  intro a ha b hb h
  simp only [List.mem_range] at ha hb
  have := congrArg BitVec.toNat h
  rwa [BitVec.toNat_ofNat, BitVec.toNat_ofNat, Nat.mod_eq_of_lt (by omega), Nat.mod_eq_of_lt (by omega)] at this

theorem regsTo_ne_nil (x : Reg) : regsTo x ≠ [] := by
  intro h
  have := congrArg List.length h
  simp at this

end Sys2Proof.Machine
end

