-- ==== Sys2Proof/Laws/Decode.lean ====
section
/-! SUPPORT. The bits of an encoded word, the fields a decoder reads from it, and a word rebuilt from its fields. -/

namespace Sys2Proof

/-! ### Bits of the three layouts (R51, R52) -/

theorem bit_nnn (p : Nibble) (nnn : Addr12) (i : Nat) :
    (p ++ nnn : Word).getLsbD i = if i < 12 then nnn.getLsbD i else p.getLsbD (i - 12) :=
  BitVec.getLsbD_append

theorem bit_xnn (p : Nibble) (x : Reg) (nn : Byte) (i : Nat) :
    (p ++ x ++ nn : Word).getLsbD i =
      if i < 8 then nn.getLsbD i else if i < 12 then x.getLsbD (i - 8) else p.getLsbD (i - 12) := by
  refine BitVec.getLsbD_append.trans ?_
  rw [BitVec.getLsbD_append]
  by_cases h : i < 8
  · simp only [h, if_true]
  · by_cases h2 : i < 12
    · simp only [h, h2, show i - 8 < 4 by omega, if_true, if_false]
    · simp only [h, h2, show ¬ i - 8 < 4 by omega, if_false, show i - 8 - 4 = i - 12 by omega]

theorem bit_xyn (p : Nibble) (x y : Reg) (n : Nibble) (i : Nat) :
    (p ++ x ++ y ++ n : Word).getLsbD i =
      if i < 4 then n.getLsbD i else if i < 8 then y.getLsbD (i - 4)
      else if i < 12 then x.getLsbD (i - 8) else p.getLsbD (i - 12) := by
  refine BitVec.getLsbD_append.trans ?_
  rw [BitVec.getLsbD_append, BitVec.getLsbD_append]
  by_cases h : i < 4
  · simp only [h, if_true]
  · by_cases h1 : i < 8
    · simp only [h, h1, show i - 4 < 4 by omega, if_true, if_false]
    · by_cases h2 : i < 12
      · simp only [h, h1, h2, show ¬ i - 4 < 4 by omega, if_false, show i - 4 - 4 = i - 8 by omega,
          show i - 8 < 4 by omega, if_true]
      · simp only [h, h1, h2, show ¬ i - 4 < 4 by omega, if_false, show i - 4 - 4 = i - 8 by omega,
          show ¬ i - 8 < 4 by omega, show i - 8 - 4 = i - 12 by omega]

/-! ### The fields of an encoded word -/

theorem fieldsOf_nnn (p : Nibble) (nnn : Addr12) :
    (fieldsOf (p ++ nnn)).pfx = p ∧ (fieldsOf (p ++ nnn)).nnn = nnn := by
  refine ⟨?_, ?_⟩ <;> (
    simp only [fieldsOf]
    refine BitVec.eq_of_getLsbD_eq fun i hi => ?_
    rw [BitVec.getLsbD_extractLsb', bit_nnn]
    interval_cases i <;> simp)

theorem fieldsOf_xnn (p : Nibble) (x : Reg) (nn : Byte) :
    (fieldsOf (p ++ x ++ nn)).pfx = p ∧ (fieldsOf (p ++ x ++ nn)).x = x ∧ (fieldsOf (p ++ x ++ nn)).nn = nn := by
  refine ⟨?_, ?_, ?_⟩ <;> (
    simp only [fieldsOf]
    refine BitVec.eq_of_getLsbD_eq fun i hi => ?_
    rw [BitVec.getLsbD_extractLsb', bit_xnn]
    interval_cases i <;> simp)

theorem fieldsOf_xyn (p : Nibble) (x y : Reg) (n : Nibble) :
    (fieldsOf (p ++ x ++ y ++ n)).pfx = p ∧ (fieldsOf (p ++ x ++ y ++ n)).x = x ∧
    (fieldsOf (p ++ x ++ y ++ n)).y = y ∧ (fieldsOf (p ++ x ++ y ++ n)).n = n := by
  refine ⟨?_, ?_, ?_, ?_⟩ <;> (
    simp only [fieldsOf]
    refine BitVec.eq_of_getLsbD_eq fun i hi => ?_
    rw [BitVec.getLsbD_extractLsb', bit_xyn]
    interval_cases i <;> simp)

/-! ### A word rebuilt from its fields -/

theorem word_of_nnn (w : Word) : (fieldsOf w).pfx ++ (fieldsOf w).nnn = w := by
  refine BitVec.eq_of_getLsbD_eq fun i hi => ?_
  rw [bit_nnn]
  simp only [fieldsOf, BitVec.getLsbD_extractLsb']
  interval_cases i <;> simp

theorem word_of_xnn (w : Word) : (fieldsOf w).pfx ++ (fieldsOf w).x ++ (fieldsOf w).nn = w := by
  refine BitVec.eq_of_getLsbD_eq fun i hi => ?_
  rw [bit_xnn]
  simp only [fieldsOf, BitVec.getLsbD_extractLsb']
  interval_cases i <;> simp

theorem word_of_xyn (w : Word) : (fieldsOf w).pfx ++ (fieldsOf w).x ++ (fieldsOf w).y ++ (fieldsOf w).n = w := by
  refine BitVec.eq_of_getLsbD_eq fun i hi => ?_
  rw [bit_xyn]
  simp only [fieldsOf, BitVec.getLsbD_extractLsb']
  interval_cases i <;> simp

/-- The two bytes of a word, the high one first, are the word (R34). -/
theorem opcodeOf_bytes (w : Word) : opcodeOf (hiByte w) (loByte w) = w := by
  refine BitVec.eq_of_getLsbD_eq fun i hi => ?_
  refine BitVec.getLsbD_append.trans ?_
  simp only [hiByte, loByte, BitVec.getLsbD_extractLsb']
  interval_cases i <;> simp

/-! ### The masks of spec/opcode_table.json on an encoded word -/

theorem mask_nnn (p : Nibble) (nnn : Addr12) : (p ++ nnn : Word) &&& 0xF000#16 = p ++ 0x000#12 := by
  refine BitVec.eq_of_getLsbD_eq fun i hi => ?_
  rw [BitVec.getLsbD_and, bit_nnn, bit_nnn]
  interval_cases i <;> simp

theorem mask_xnn (p : Nibble) (x : Reg) (nn : Byte) : (p ++ x ++ nn : Word) &&& 0xF000#16 = p ++ 0x000#12 := by
  refine BitVec.eq_of_getLsbD_eq fun i hi => ?_
  rw [BitVec.getLsbD_and, bit_nnn, bit_xnn]
  interval_cases i <;> simp

theorem mask_x (p : Nibble) (x : Reg) (nn : Byte) : (p ++ x ++ nn : Word) &&& 0xF0FF#16 = p ++ 0x0#4 ++ nn := by
  refine BitVec.eq_of_getLsbD_eq fun i hi => ?_
  rw [BitVec.getLsbD_and, bit_xnn, bit_xnn]
  interval_cases i <;> simp

theorem mask_xy (p : Nibble) (x y : Reg) (n : Nibble) :
    (p ++ x ++ y ++ n : Word) &&& 0xF00F#16 = p ++ 0x0#4 ++ 0x0#4 ++ n := by
  refine BitVec.eq_of_getLsbD_eq fun i hi => ?_
  rw [BitVec.getLsbD_and, bit_xyn, bit_xyn]
  interval_cases i <;> simp

theorem mask_xyn (p : Nibble) (x y : Reg) (n : Nibble) : (p ++ x ++ y ++ n : Word) &&& 0xF000#16 = p ++ 0x000#12 := by
  refine BitVec.eq_of_getLsbD_eq fun i hi => ?_
  rw [BitVec.getLsbD_and, bit_nnn, bit_xyn]
  interval_cases i <;> simp

end Sys2Proof
end

