-- ==== Sys2Proof/Laws/Draw.lean ====
section
/-! SUPPORT. The sprite writer said once: what one row does to every pixel and when it collides, and what a run of rows
can change. -/

namespace Sys2Proof.Machine

open Sys2Proof

/-! ### One byte and one row -/

/-- The pixels of a framebuffer byte after a write of one (R33). -/
theorem pixel_setByte {s : State} (h : Memory.wf s.mem = true) {c py px y : Nat} (x : Byte) (hc : c < 8) (hpx : px < 64) :
    (s.setByte (rowAddr c py) x).pixel px y = if y = py ∧ px / 8 = c then x.getLsbD (7 - px % 8) else s.pixel px y := by
  unfold State.pixel rowAddr
  rw [State.byteAt_setByte h]
  by_cases hy : y = py ∧ px / 8 = c
  · obtain ⟨rfl, rfl⟩ := hy
    simp
  · rw [if_neg hy, if_neg (by simp only [Config.fbBase, Config.rowBytes]; omega)]

theorem setByte_wf {s : State} (h : Memory.wf s.mem = true) {a : Nat} (x : Byte) (ha : a < Config.memSize) :
    Memory.wf (s.setByte a x).mem = true :=
  Memory.write_wf h ha

/-- A row's addresses lie in the framebuffer (R132). -/
theorem rowAddr_bounds {col py : Nat} (hc : col < 8) (hp : py < 32) :
    Config.fbBase ≤ rowAddr col py ∧ rowAddr col py < Config.memSize := by
  simp only [rowAddr, Config.fbBase, Config.rowBytes, Config.memSize]
  omega

/-- The bit of sprite row `b` that lands on column `px` when the left edge is at column `px0`, if one does. -/
def spriteBit (px0 : Nat) (b : Byte) (px : Nat) : Bool :=
  decide (px0 ≤ px ∧ px - px0 < 8) && b.getLsbD (7 - (px - px0))

theorem hiPart_bit {sh : Nat} (b : Byte) (hsh : sh < 8) {k : Nat} (hk : k < 8) :
    (hiPart sh b).getLsbD (7 - k) = (decide (sh ≤ k) && b.getLsbD (7 - (k - sh))) := by
  unfold hiPart
  rw [BitVec.getLsbD_ushiftRight]
  by_cases h : sh ≤ k
  · simp only [h, decide_true, Bool.true_and]
    congr 1
    omega
  · simp only [h, decide_false, Bool.false_and]
    exact BitVec.getLsbD_of_ge _ _ (by omega)

theorem loPart_bit {sh : Nat} (b : Byte) (hsh : sh < 8) {k : Nat} (hk : k < 8) :
    (loPart sh b).getLsbD (7 - k) = (decide (k < sh) && b.getLsbD (7 - (k + 8 - sh))) := by
  unfold loPart
  rw [BitVec.getLsbD_shiftLeft]
  by_cases h : k < sh
  · have h1 : 7 - k < 8 := by omega
    have h2 : ¬ 7 - k < 8 - sh := by omega
    simp only [h, h1, h2, decide_true, decide_false, Bool.not_false, Bool.true_and]
    congr 1
    omega
  · have h2 : 7 - k < 8 - sh := by omega
    simp [h, h2]

/-- One row XORs its sprite bits into its screen row and leaves every other pixel (R132 to R134). -/
theorem blitRow_pixel {s : State} (h : Memory.wf s.mem = true) {col sh py : Nat} (b : Byte) (hc : col < 8) (hsh : sh < 8)
    (hp : py < 32) {px y : Nat} (hpx : px < 64) :
    (blitRow col sh py b s).1.pixel px y =
      Bool.xor (s.pixel px y) (decide (y = py) && spriteBit (8 * col + sh) b px) := by
  have hb := rowAddr_bounds hc hp
  have first : (s.setByte (rowAddr col py) (s.byteAt (rowAddr col py) ^^^ hiPart sh b)).pixel px y =
      Bool.xor (s.pixel px y) (decide (y = py ∧ px / 8 = col) && (hiPart sh b).getLsbD (7 - px % 8)) := by
    rw [pixel_setByte h _ hc hpx]
    by_cases hy : y = py ∧ px / 8 = col
    · obtain ⟨rfl, rfl⟩ := hy
      simp [State.pixel, rowAddr]
    · simp [hy]
  have hi := hiPart_bit b hsh (k := px % 8) (by omega)
  unfold blitRow
  simp only []
  by_cases hcond : sh ≠ 0 ∧ col < 7
  · rw [if_pos hcond]
    simp only [blitByte]
    have hc1 : col + 1 < 8 := by omega
    have e : rowAddr col py + 1 = rowAddr (col + 1) py := rfl
    have lo := loPart_bit b hsh (k := px % 8) (by omega)
    rw [e, pixel_setByte (setByte_wf h _ hb.2) _ hc1 hpx, first]
    by_cases hy : y = py
    · subst hy
      by_cases h1 : px / 8 = col + 1
      · have hne : ¬ px / 8 = col := by omega
        have hbit : (s.byteAt (rowAddr (col + 1) y)).getLsbD (7 - px % 8) = s.pixel px y := by
          simp only [State.pixel, rowAddr, h1]
        have haddr : rowAddr (col + 1) y ≠ rowAddr col y := by simp only [rowAddr]; omega
        rw [if_pos ⟨rfl, h1⟩, BitVec.getLsbD_xor, lo, State.byteAt_setByte_other _ _ haddr, hbit]
        simp only [spriteBit, decide_true, Bool.true_and]
        by_cases h2 : px % 8 < sh
        · have h3 : 8 * col + sh ≤ px ∧ px - (8 * col + sh) < 8 := by omega
          simp only [h2, h3, and_self, decide_true, Bool.true_and]
          congr 2
          omega
        · have h3 : ¬ (8 * col + sh ≤ px ∧ px - (8 * col + sh) < 8) := by omega
          simp [h2, h3]
      · rw [if_neg (by simp [h1])]
        by_cases h2 : px / 8 = col
        · rw [hi]
          simp only [h2, spriteBit, and_self, decide_true, Bool.true_and]
          by_cases h3 : sh ≤ px % 8
          · have h4 : 8 * col + sh ≤ px ∧ px - (8 * col + sh) < 8 := by omega
            simp only [h3, h4, and_self, decide_true, Bool.true_and]
            congr 3
            omega
          · have h4 : ¬ (8 * col + sh ≤ px ∧ px - (8 * col + sh) < 8) := by omega
            simp [h3, h4]
        · have h4 : ¬ (8 * col + sh ≤ px ∧ px - (8 * col + sh) < 8) := by omega
          simp [h2, spriteBit, h4]
    · simp [hy]
  · rw [if_neg hcond]
    simp only [blitByte]
    rw [first]
    by_cases hy : y = py
    · subst hy
      by_cases h2 : px / 8 = col
      · rw [hi]
        simp only [h2, spriteBit, and_self, decide_true, Bool.true_and]
        by_cases h3 : sh ≤ px % 8
        · have h4 : 8 * col + sh ≤ px ∧ px - (8 * col + sh) < 8 := by omega
          simp only [h3, h4, and_self, decide_true, Bool.true_and]
          congr 3
          omega
        · have h4 : ¬ (8 * col + sh ≤ px ∧ px - (8 * col + sh) < 8) := by omega
          simp [h3, h4]
      · have h4 : ¬ (8 * col + sh ≤ px ∧ px - (8 * col + sh) < 8) := by omega
        simp [h2, spriteBit, h4]
    · simp [hy]

/-- A byte's collision test, bit by bit, counted from the left (R135). -/
theorem collides_iff (d b : Byte) : collides d b = true ↔ ∃ k, k < 8 ∧ d.getLsbD (7 - k) = true ∧ b.getLsbD (7 - k) = true := by
  unfold collides
  rw [decide_eq_true_eq]
  constructor
  · intro h
    by_contra hno
    refine h (BitVec.eq_of_getLsbD_eq fun i hi => ?_)
    rw [BitVec.getLsbD_and, BitVec.getLsbD_zero]
    by_contra hb
    simp only [Bool.not_eq_false, Bool.and_eq_true] at hb
    refine hno ⟨7 - i, by omega, ?_⟩
    rw [show 7 - (7 - i) = i by omega]
    exact hb
  · rintro ⟨k, _, hd, hb⟩ h
    have := congrArg (fun v => v.getLsbD (7 - k)) h
    simp [hd, hb] at this

/-- One row collides iff a pixel that is set meets a set sprite bit landing on it (R135). -/
theorem blitRow_hit {s : State} {col sh py : Nat} (b : Byte) (hc : col < 8) (hsh : sh < 8) :
    (blitRow col sh py b s).2 = true ↔
      ∃ px, px < 64 ∧ s.pixel px py = true ∧ spriteBit (8 * col + sh) b px = true := by
  have key1 : collides (s.byteAt (rowAddr col py)) (hiPart sh b) = true ↔
      ∃ px, px / 8 = col ∧ s.pixel px py = true ∧ spriteBit (8 * col + sh) b px = true := by
    rw [collides_iff]
    constructor
    · rintro ⟨k, hk, hd, hb⟩
      rw [hiPart_bit b hsh hk, Bool.and_eq_true, decide_eq_true_eq] at hb
      refine ⟨8 * col + k, by omega, ?_, ?_⟩
      · rw [State.pixel, show (8 * col + k) / 8 = col by omega, show (8 * col + k) % 8 = k by omega]
        exact hd
      · simp only [spriteBit, Bool.and_eq_true, decide_eq_true_eq]
        refine ⟨by omega, ?_⟩
        rw [show 8 * col + k - (8 * col + sh) = k - sh by omega]
        exact hb.2
    · rintro ⟨px, hpx, hd, hb⟩
      simp only [spriteBit, Bool.and_eq_true, decide_eq_true_eq] at hb
      refine ⟨px % 8, by omega, ?_, ?_⟩
      · rw [State.pixel, hpx] at hd
        exact hd
      · rw [hiPart_bit b hsh (by omega), Bool.and_eq_true, decide_eq_true_eq]
        refine ⟨by omega, ?_⟩
        rw [show px % 8 - sh = px - (8 * col + sh) by omega]
        exact hb.2
  unfold blitRow
  simp only [blitByte]
  by_cases hcond : sh ≠ 0 ∧ col < 7
  · rw [if_pos hcond]
    simp only [Bool.or_eq_true]
    rw [key1, collides_iff]
    have haddr : rowAddr col py + 1 ≠ rowAddr col py := by omega
    rw [State.byteAt_setByte_other _ _ haddr]
    constructor
    · rintro (⟨px, h1, h2, h3⟩ | ⟨k, hk, hd, hb⟩)
      · exact ⟨px, by omega, h2, h3⟩
      · rw [loPart_bit b hsh hk, Bool.and_eq_true, decide_eq_true_eq] at hb
        refine ⟨8 * col + 8 + k, by omega, ?_, ?_⟩
        · rw [State.pixel, show (8 * col + 8 + k) / 8 = col + 1 by omega, show (8 * col + 8 + k) % 8 = k by omega]
          exact hd
        · simp only [spriteBit, Bool.and_eq_true, decide_eq_true_eq]
          refine ⟨by omega, ?_⟩
          rw [show 8 * col + 8 + k - (8 * col + sh) = k + 8 - sh by omega]
          exact hb.2
    · rintro ⟨px, h1, h2, h3⟩
      by_cases hpc : px / 8 = col
      · exact .inl ⟨px, hpc, h2, h3⟩
      · simp only [spriteBit, Bool.and_eq_true, decide_eq_true_eq] at h3
        have hpc1 : px / 8 = col + 1 := by omega
        refine .inr ⟨px % 8, by omega, ?_, ?_⟩
        · rw [State.pixel, hpc1] at h2
          exact h2
        · rw [loPart_bit b hsh (by omega), Bool.and_eq_true, decide_eq_true_eq]
          refine ⟨by omega, ?_⟩
          rw [show px % 8 + 8 - sh = px - (8 * col + sh) by omega]
          exact h3.2
  · rw [if_neg hcond]
    simp only []
    rw [key1]
    constructor
    · rintro ⟨px, h1, h2, h3⟩
      exact ⟨px, by omega, h2, h3⟩
    · rintro ⟨px, h1, h2, h3⟩
      have h4 := h3
      simp only [spriteBit, Bool.and_eq_true, decide_eq_true_eq] at h4
      exact ⟨px, by omega, h2, h3⟩

/-- One row changes Memory alone, at its own screen row's addresses alone, and keeps the canonical form. -/
theorem blitRow_frame (col sh py : Nat) (b : Byte) (s : State) :
    (blitRow col sh py b s).1 = { s with mem := (blitRow col sh py b s).1.mem } ∧
    (∀ a, a ≠ rowAddr col py → ¬ (sh ≠ 0 ∧ col < 7 ∧ a = rowAddr col py + 1) →
      (blitRow col sh py b s).1.byteAt a = s.byteAt a) ∧
    (Memory.wf s.mem = true → col < 8 → py < 32 → Memory.wf (blitRow col sh py b s).1.mem = true) := by
  unfold blitRow
  simp only [blitByte]
  by_cases hcond : sh ≠ 0 ∧ col < 7
  · rw [if_pos hcond]
    refine ⟨rfl, fun a h1 h2 => ?_, fun hwf hc hp => ?_⟩
    · have h3 : a ≠ rowAddr col py + 1 := fun h => h2 ⟨hcond.1, hcond.2, h⟩
      simp only []
      rw [State.byteAt_setByte_other _ _ h3, State.byteAt_setByte_other _ _ h1]
    · have hb := rowAddr_bounds hc hp
      have hb1 := rowAddr_bounds (show col + 1 < 8 by omega) hp
      exact setByte_wf (setByte_wf hwf _ hb.2) _ hb1.2
  · rw [if_neg hcond]
    refine ⟨rfl, fun a h1 _ => ?_, fun hwf hc hp => ?_⟩
    · simp only []
      rw [State.byteAt_setByte_other _ _ h1]
    · exact setByte_wf hwf _ (rowAddr_bounds hc hp).2

/-! ### Runs of rows -/

theorem drawRows_succ (col sh py0 base todo r : Nat) (hit : Bool) (s : State) :
    drawRows col sh py0 base (todo + 1) r hit s =
      if py0 + r < Config.screenH then
        match memRead (base + r) s with
        | some b =>
          drawRows col sh py0 base todo (r + 1) (hit || (blitRow col sh (py0 + r) b s).2) (blitRow col sh (py0 + r) b s).1
        | none => .error s
      else drawRows col sh py0 base todo (r + 1) hit s := rfl

/-- Every state a run of rows can stop in differs in Memory alone, only in bytes of rows it could have drawn, and its
memory keeps the canonical form. -/
theorem drawRows_cases (col sh py0 base : Nat) : ∀ (todo r : Nat) (hit : Bool) (s : State),
    ∃ m, ((∃ hit', drawRows col sh py0 base todo r hit s = .ok ({ s with mem := m }, hit')) ∨
        drawRows col sh py0 base todo r hit s = .error { s with mem := m }) ∧
      (∀ a, (∀ q, r ≤ q → q < r + todo → py0 + q < 32 → a ≠ rowAddr col (py0 + q) ∧
          ¬ (sh ≠ 0 ∧ col < 7 ∧ a = rowAddr col (py0 + q) + 1)) → Memory.read m a = s.byteAt a) ∧
      (Memory.wf s.mem = true → col < 8 → Memory.wf m = true)
  | 0, _, hit, s => ⟨s.mem, .inl ⟨hit, rfl⟩, fun _ _ => rfl, fun h _ => h⟩
  | todo + 1, r, hit, s => by
    unfold drawRows
    by_cases hp : py0 + r < Config.screenH
    · rw [if_pos hp]
      by_cases ha : base + r < Config.memSize
      · simp only [memRead, ha, if_true]
        obtain ⟨hmem, hother, hwf⟩ := blitRow_frame col sh (py0 + r) (s.byteAt (base + r)) s
        obtain ⟨m, hm, hread, hwf'⟩ := drawRows_cases col sh py0 base todo (r + 1)
          (hit || (blitRow col sh (py0 + r) (s.byteAt (base + r)) s).2)
          (blitRow col sh (py0 + r) (s.byteAt (base + r)) s).1
        refine ⟨m, ?_, fun a hq => ?_, fun h hc => hwf' (hwf h hc hp) hc⟩
        · have e : { (blitRow col sh (py0 + r) (s.byteAt (base + r)) s).1 with mem := m } = { s with mem := m } := by
            rw [hmem]
          rw [← e]
          exact hm
        · rw [hread a fun q h1 h2 h3 => hq q (by omega) (by omega) h3]
          obtain ⟨h1, h2⟩ := hq r (by omega) (by omega) hp
          exact hother a h1 h2
      · simp only [memRead, ha, if_false]
        exact ⟨s.mem, .inr rfl, fun _ _ => rfl, fun h _ => h⟩
    · rw [if_neg hp]
      obtain ⟨m, hm, hread, hwf⟩ := drawRows_cases col sh py0 base todo (r + 1) hit s
      exact ⟨m, hm, fun a hq => hread a fun q h1 h2 h3 => hq q (by omega) (by omega) h3, hwf⟩

/-- Rows whose sprite bytes are all in bounds are all drawn: the run does not stop. -/
theorem drawRows_ok (col sh py0 base : Nat) : ∀ (todo r : Nat) (hit : Bool) (s : State),
    (∀ q, r ≤ q → q < r + todo → py0 + q < 32 → base + q < Config.memSize) →
    ∃ m hit', drawRows col sh py0 base todo r hit s = .ok ({ s with mem := m }, hit')
  | 0, _, hit, s, _ => ⟨s.mem, hit, rfl⟩
  | todo + 1, r, hit, s, h => by
    unfold drawRows
    by_cases hp : py0 + r < Config.screenH
    · rw [if_pos hp]
      have ha : base + r < Config.memSize := h r (by omega) (by omega) hp
      simp only [memRead, ha, if_true]
      obtain ⟨hmem, -, -⟩ := blitRow_frame col sh (py0 + r) (s.byteAt (base + r)) s
      obtain ⟨m, hit', hm⟩ := drawRows_ok col sh py0 base todo (r + 1)
        (hit || (blitRow col sh (py0 + r) (s.byteAt (base + r)) s).2)
        (blitRow col sh (py0 + r) (s.byteAt (base + r)) s).1 fun q h1 h2 h3 => h q (by omega) (by omega) h3
      refine ⟨m, hit', ?_⟩
      have e : { (blitRow col sh (py0 + r) (s.byteAt (base + r)) s).1 with mem := m } = { s with mem := m } := by
        rw [hmem]
      rw [← e]
      exact hm
    · rw [if_neg hp]
      exact drawRows_ok col sh py0 base todo (r + 1) hit s fun q h1 h2 h3 => h q (by omega) (by omega) h3

/-- A run of rows is a run of its first rows followed by a run of the others. -/
theorem drawRows_append (col sh py0 base : Nat) : ∀ (k todo r : Nat) (hit : Bool) (s : State),
    drawRows col sh py0 base (k + todo) r hit s =
      match drawRows col sh py0 base k r hit s with
      | .ok (t, hit') => drawRows col sh py0 base todo (r + k) hit' t
      | .error t => .error t
  | 0, todo, r, hit, s => by
    rw [Nat.zero_add]
    rfl
  | k + 1, todo, r, hit, s => by
    rw [show k + 1 + todo = (k + todo) + 1 by omega, drawRows_succ, drawRows_succ (todo := k)]
    by_cases hp : py0 + r < Config.screenH
    · rw [if_pos hp, if_pos hp]
      by_cases ha : base + r < Config.memSize
      · simp only [memRead, ha, if_true]
        rw [drawRows_append col sh py0 base k todo (r + 1), show r + 1 + k = r + (k + 1) by omega]
      · simp only [memRead, ha, if_false]
    · rw [if_neg hp, if_neg hp, drawRows_append col sh py0 base k todo (r + 1), show r + 1 + k = r + (k + 1) by omega]

/-- What a run of rows that was drawn does, in one statement over the sprite bytes `B` as they were read: every pixel is
XORed with the sprite bit landing on it, the hit flag says whether a set pixel met a set bit, and the bytes read are
those of Memory before the run wherever the sprite lies below the framebuffer. -/
theorem drawRows_spec {col sh py0 base : Nat} (hc : col < 8) (hsh : sh < 8) :
    ∀ (todo r : Nat) (hit : Bool) (s t : State) (hit' : Bool), Memory.wf s.mem = true →
      drawRows col sh py0 base todo r hit s = .ok (t, hit') →
      ∃ B : Nat → Byte,
        (∀ px y, px < 64 → y < 32 → t.pixel px y = Bool.xor (s.pixel px y)
          (decide (py0 + r ≤ y ∧ y < py0 + r + todo) && spriteBit (8 * col + sh) (B (y - py0)) px)) ∧
        (hit' = true ↔ hit = true ∨ ∃ px y, px < 64 ∧ y < 32 ∧ py0 + r ≤ y ∧ y < py0 + r + todo ∧
          s.pixel px y = true ∧ spriteBit (8 * col + sh) (B (y - py0)) px = true) ∧
        ((∀ q, r ≤ q → q < r + todo → py0 + q < 32 → base + q < Config.fbBase) →
          ∀ q, r ≤ q → q < r + todo → py0 + q < 32 → B q = s.byteAt (base + q))
  | 0, r, hit, s, t, hit', _, h => by
    simp only [drawRows, Except.ok.injEq, Prod.mk.injEq] at h
    obtain ⟨rfl, rfl⟩ := h
    refine ⟨fun _ => 0, fun px y _ _ => ?_, ?_, fun _ q h1 h2 => by omega⟩
    · rw [show decide (py0 + r ≤ y ∧ y < py0 + r + 0) = false from decide_eq_false (by omega)]
      simp
    · constructor
      · exact .inl
      · rintro (h | ⟨px, y, _, _, _, _, _⟩)
        · exact h
        · omega
  | todo + 1, r, hit, s, t, hit', hwf, h => by
    rw [drawRows_succ] at h
    by_cases hp : py0 + r < Config.screenH
    · rw [if_pos hp] at h
      by_cases ha : base + r < Config.memSize
      · simp only [memRead, ha, if_true] at h
        have hp' : py0 + r < 32 := hp
        obtain ⟨-, hother, hwf'⟩ := blitRow_frame col sh (py0 + r) (s.byteAt (base + r)) s
        obtain ⟨B, hpix, hhit, hB⟩ := drawRows_spec hc hsh todo (r + 1) _ _ t hit' (hwf' hwf hc hp') h
        have hrow : ∀ px y, px < 64 → (blitRow col sh (py0 + r) (s.byteAt (base + r)) s).1.pixel px y =
            Bool.xor (s.pixel px y) (decide (y = py0 + r) && spriteBit (8 * col + sh) (s.byteAt (base + r)) px) :=
          fun px y hpx => blitRow_pixel hwf (s.byteAt (base + r)) hc hsh hp' hpx
        refine ⟨fun q => if q = r then s.byteAt (base + r) else B q, fun px y hpx hy => ?_, ?_, fun hfb q h1 h2 h3 => ?_⟩
        · rw [hpix px y hpx hy, hrow px y hpx]
          by_cases hyr : y = py0 + r
          · subst hyr
            simp
          · have e : ¬ y - py0 = r ∨ y < py0 := by omega
            by_cases hlt : y < py0
            · have h1 : ¬ (py0 + (r + 1) ≤ y ∧ y < py0 + (r + 1) + todo) := by omega
              have h2 : ¬ (py0 + r ≤ y ∧ y < py0 + r + (todo + 1)) := by omega
              simp only [hyr, h1, h2, decide_false, Bool.false_and, Bool.xor_false]
            · have h1 : ¬ y - py0 = r := by omega
              have h2 : (py0 + (r + 1) ≤ y ∧ y < py0 + (r + 1) + todo) ↔ (py0 + r ≤ y ∧ y < py0 + r + (todo + 1)) := by
                omega
              simp only [hyr, h1, h2, decide_false, Bool.false_and, Bool.xor_false, if_false]
        · rw [hhit, Bool.or_eq_true, blitRow_hit (s.byteAt (base + r)) hc hsh]
          constructor
          · rintro ((h1 | ⟨px, h1, h2, h3⟩) | ⟨px, y, h1, h2, h3, h4, h5, h6⟩)
            · exact .inl h1
            · exact .inr ⟨px, py0 + r, h1, hp', by omega, by omega, h2, by simpa using h3⟩
            · have hyr : ¬ y = py0 + r := by omega
              have h7 : ¬ y - py0 = r := by omega
              rw [hrow px y h1] at h5
              simp only [hyr, decide_false, Bool.false_and, Bool.xor_false] at h5
              exact .inr ⟨px, y, h1, h2, by omega, by omega, h5, by simpa [h7] using h6⟩
          · rintro (h1 | ⟨px, y, h1, h2, h3, h4, h5, h6⟩)
            · exact .inl (.inl h1)
            · by_cases hyr : y = py0 + r
              · subst hyr
                exact .inl (.inr ⟨px, h1, h5, by simpa using h6⟩)
              · have h7 : ¬ y - py0 = r := by omega
                refine .inr ⟨px, y, h1, h2, by omega, by omega, ?_, by simpa [h7] using h6⟩
                rw [hrow px y h1]
                simp only [hyr, decide_false, Bool.false_and, Bool.xor_false]
                exact h5
        · by_cases hq : q = r
          · simp only [hq, if_true]
          · simp only [hq, if_false]
            rw [hB (fun q h1 h2 h3 => hfb q (by omega) (by omega) h3) q (by omega) (by omega) h3]
            have hlow := hfb q h1 h2 h3
            have hb := rowAddr_bounds hc hp'
            exact hother _ (by omega) (by omega)
      · simp only [memRead, ha, if_false] at h
        exact absurd h (by simp)
    · rw [if_neg hp] at h
      obtain ⟨B, hpix, hhit, hB⟩ := drawRows_spec hc hsh todo (r + 1) hit s t hit' hwf h
      have hp' : ¬ py0 + r < 32 := hp
      refine ⟨B, fun px y hpx hy => ?_, ?_, fun hfb q h1 h2 h3 => ?_⟩
      · rw [hpix px y hpx hy]
        have h1 : ¬ (py0 + (r + 1) ≤ y ∧ y < py0 + (r + 1) + todo) := by omega
        have h2 : ¬ (py0 + r ≤ y ∧ y < py0 + r + (todo + 1)) := by omega
        simp only [h1, h2]
      · rw [hhit]
        constructor
        · rintro (h1 | ⟨px, y, h1, h2, h3, h4, h5⟩)
          · exact .inl h1
          · omega
        · rintro (h1 | ⟨px, y, h1, h2, h3, h4, h5⟩)
          · exact .inl h1
          · omega
      · omega

end Sys2Proof.Machine
end

