-- ==== Sys2Proof/Laws/Exec.lean ====
section
/-! SUPPORT. What the instructions that reach Memory or the stack can do, said once each, and that every instruction has
a next state. -/

namespace Sys2Proof.Machine

open Sys2Proof

/-- `00EE` pops, or raises stack-underflow (R86). -/
theorem execRet_cases (s : State) :
    (∃ (_ : s.sp.val ≠ 0), execRet s = .next { s with
        pc := s.stkAt (s.sp.val - 1) (by have := s.sp.isLt; omega)
        sp := ⟨s.sp.val - 1, by have := s.sp.isLt; omega⟩ }) ∨
    (s.sp.val = 0 ∧ execRet s = .next (raiseBy .ret .stackUnderflow s)) := by
  unfold execRet
  by_cases h : s.sp.val = 0
  · rw [pop_eq_none h]
    exact .inr ⟨h, rfl⟩
  · rw [pop_eq_some h]
    exact .inl ⟨h, rfl⟩

/-- `2nnn` pushes, or raises stack-overflow (R88). -/
theorem execCall_cases (nnn : Addr12) (s : State) :
    (∃ (h : s.sp.val < 16), execCall nnn s = .next { s with
        pc := addrOf nnn
        stk := s.stk.set s.sp.val s.pc h
        sp := ⟨s.sp.val + 1, Nat.succ_lt_succ h⟩ }) ∨
    (s.sp.val = 16 ∧ execCall nnn s = .next (raiseBy (.call nnn) .stackOverflow s)) := by
  unfold execCall
  by_cases h : s.sp.val < 16
  · rw [push_eq_some h]
    exact .inl ⟨h, rfl⟩
  · rw [push_eq_none h]
    exact .inr ⟨by have := s.sp.isLt; omega, rfl⟩

/-- A storing instruction changes Memory alone, completing or raising out-of-bounds-memory-access. -/
theorem endAccess_storeRun (i : Instr) (xs : List Byte) (a : Nat) (s : State) :
    ∃ m, (endAccess i (storeRun xs a s) = .next { s with mem := m } ∨
        endAccess i (storeRun xs a s) = .next (raiseBy i .outOfBounds { s with mem := m })) ∧
      (Memory.wf s.mem = true → Memory.wf m = true) ∧
      (∀ b, ¬ (a ≤ b ∧ b < a + xs.length ∧ b < Config.memSize) → Memory.read m b = s.byteAt b) := by
  by_cases h : a + xs.length ≤ Config.memSize
  · rw [storeRun_ok xs a s h]
    exact ⟨_, .inl rfl, fun hw => loadBytes_wf xs a _ hw h, fun b hb => read_loadBytes_other xs a _ b (by omega)⟩
  · by_cases hne : xs = []
    · subst hne
      exact ⟨s.mem, .inl rfl, id, fun _ _ => rfl⟩
    · rw [storeRun_error xs a s hne (by omega)]
      refine ⟨_, .inr rfl, fun hw => ?_, fun b hb => ?_⟩
      · by_cases ha : a ≤ Config.memSize
        · exact loadBytes_wf _ a _ hw (by rw [List.length_take]; omega)
        · rw [show Config.memSize - a = 0 by omega, List.take_zero]
          exact hw
      · refine read_loadBytes_other _ a _ b ?_
        rw [List.length_take]
        omega

/-- A loading instruction changes registers of its list alone, completing or raising out-of-bounds-memory-access. -/
theorem endAccess_loadRun (i : Instr) (rs : List Reg) (a : Nat) (s : State) :
    ∃ w, (endAccess i (loadRun rs a s) = .next { s with v := w } ∨
        endAccess i (loadRun rs a s) = .next (raiseBy i .outOfBounds { s with v := w })) ∧
      (∀ r, r ∉ rs → State.reg { s with v := w } r = s.reg r) := by
  by_cases h : a + rs.length ≤ Config.memSize
  · obtain ⟨t, ht, hv, hother, -⟩ := loadRun_ok rs a s h
    rw [ht]
    exact ⟨t.v, .inl (congrArg Host.Outcome.next hv), fun r hr => by rw [← hother r hr]; rfl⟩
  · by_cases hne : rs = []
    · subst hne
      exact ⟨s.v, .inl rfl, fun _ _ => rfl⟩
    · obtain ⟨t, ht, ht'⟩ := loadRun_error rs a s hne (by omega)
      rw [ht]
      by_cases ha : a ≤ Config.memSize
      · obtain ⟨u, hu, hv, hother, -⟩ := loadRun_ok (rs.take (Config.memSize - a)) a s (by rw [List.length_take]; omega)
        rw [ht'] at hu
        obtain rfl : t = u := by simpa using hu
        refine ⟨t.v, .inr (congrArg (fun z => Host.Outcome.next (raiseBy i .outOfBounds z)) hv), fun r hr => ?_⟩
        rw [← hother r fun hm => hr (List.mem_of_mem_take hm)]
        rfl
      · rw [show Config.memSize - a = 0 by omega, List.take_zero] at ht'
        obtain rfl : s = t := by simpa [loadRun] using ht'
        exact ⟨s.v, .inr rfl, fun _ _ => rfl⟩

theorem startColumn_lt (x : Reg) (s : State) : startColumn x s < 64 := Nat.mod_lt _ (by decide)

theorem startRow_lt (y : Reg) (s : State) : startRow y s < 32 := Nat.mod_lt _ (by decide)

/-- `Dxyn` changes Memory in the framebuffer alone, and then `VF` and the trace, or raises out-of-bounds-memory-access. -/
theorem execDrw_cases (x y : Reg) (n : Nibble) (s : State) :
    ∃ m, ((∃ hit, execDrw x y n s = .next (endDraw hit { s with mem := m })) ∨
        execDrw x y n s = .next (raiseBy (.drw x y n) .outOfBounds { s with mem := m })) ∧
      (Memory.wf s.mem = true → Memory.wf m = true) ∧
      (∀ a, a < Config.fbBase ∨ Config.memSize ≤ a → Memory.read m a = s.byteAt a) := by
  have hcol : startColumn x s / 8 < 8 := by have := startColumn_lt x s; omega
  obtain ⟨m, hm, hread, hwf⟩ := drawRows_cases (startColumn x s / 8) (startColumn x s % 8) (startRow y s) (effBase s)
    n.toNat 0 false s
  refine ⟨m, ?_, fun h => hwf h hcol, fun a ha => hread a fun q _ _ hq => ?_⟩
  · unfold execDrw
    rcases hm with ⟨hit, hm⟩ | hm
    · rw [hm]
      exact .inl ⟨hit, rfl⟩
    · rw [hm]
      exact .inr rfl
  · have hb := rowAddr_bounds hcol hq
    refine ⟨by omega, ?_⟩
    rintro ⟨-, h7, rfl⟩
    have hb1 := rowAddr_bounds (show startColumn x s / 8 + 1 < 8 by omega) hq
    have e : rowAddr (startColumn x s / 8) (startRow y s + q) + 1 =
      rowAddr (startColumn x s / 8 + 1) (startRow y s + q) := rfl
    omega

/-- Memory with the framebuffer zeroed. Irreducible: no proof should compute its 256 writes. -/
@[irreducible] def cleared (m : Memory) : Memory := loadBytes (List.replicate Config.fbSize 0x00#8) Config.fbBase m

theorem cleared_wf {m : Memory} (h : Memory.wf m = true) : Memory.wf (cleared m) = true := by
  unfold cleared
  exact loadBytes_wf _ _ _ h (by rw [List.length_replicate]; decide)

theorem read_cleared {m : Memory} (h : Memory.wf m = true) (a : Nat) :
    Memory.read (cleared m) a = if 0xF00 ≤ a ∧ a ≤ 0xFFF then 0x00#8 else Memory.read m a := by
  unfold cleared
  rw [read_loadBytes _ _ _ h (by rw [List.length_replicate]; decide)]
  by_cases ha : 0xF00 ≤ a ∧ a ≤ 0xFFF
  · rw [if_pos ha, dif_pos ⟨ha.1, by rw [List.length_replicate]; simp only [Config.fbBase, Config.fbSize]; omega⟩]
    exact List.getElem_replicate _
  · rw [if_neg ha, dif_neg]
    rw [List.length_replicate]
    simp only [Config.fbBase, Config.fbSize]
    omega

/-- Bytes outside the framebuffer read as before, in any memory. -/
theorem read_cleared_other (m : Memory) {a : Nat} (ha : ¬ (0xF00 ≤ a ∧ a ≤ 0xFFF)) :
    Memory.read (cleared m) a = Memory.read m a := by
  unfold cleared
  refine read_loadBytes_other _ _ _ _ ?_
  rw [List.length_replicate]
  simp only [Config.fbBase, Config.fbSize]
  omega

/-- `00E0` completes: its run of stores is in bounds (R131). -/
theorem execCls_eq (s : State) : execCls s = .next { s with mem := cleared s.mem } := by
  unfold execCls cleared
  rw [storeRun_ok _ _ _ (by rw [List.length_replicate]; decide)]
  rfl

/-- Every instruction has a next state, a fault's entry among them: none stops the model. -/
theorem exec_next (i : Instr) (s : State) : ∃ t, exec i s = .next t := by
  cases i with
  | ret => rcases execRet_cases s with ⟨_, h⟩ | ⟨_, h⟩ <;> exact ⟨_, h⟩
  | call nnn => rcases execCall_cases nnn s with ⟨_, h⟩ | ⟨_, h⟩ <;> exact ⟨_, h⟩
  | cls => exact ⟨_, execCls_eq s⟩
  | drw x y n => obtain ⟨m, ⟨_, h⟩ | h, _⟩ := execDrw_cases x y n s <;> exact ⟨_, h⟩
  | ldBVx x =>
    obtain ⟨m, h | h, _⟩ := endAccess_storeRun (.ldBVx x) (bcdDigits (s.reg x)) (effBase s) s <;> exact ⟨_, h⟩
  | ldMemVx x =>
    obtain ⟨m, h | h, _⟩ := endAccess_storeRun (.ldMemVx x) ((regsTo x).map s.reg) (effBase s) s <;> exact ⟨_, h⟩
  | ldVxMem x =>
    obtain ⟨w, h | h, _⟩ := endAccess_loadRun (.ldVxMem x) (regsTo x) (effBase s) s <;> exact ⟨_, h⟩
  | sys nnn => exact ⟨_, rfl⟩
  | jp nnn => exact ⟨_, rfl⟩
  | seImm x nn => exact ⟨_, rfl⟩
  | sneImm x nn => exact ⟨_, rfl⟩
  | seReg x y => exact ⟨_, rfl⟩
  | ldImm x nn => exact ⟨_, rfl⟩
  | addImm x nn => exact ⟨_, rfl⟩
  | ldReg x y => exact ⟨_, rfl⟩
  | orReg x y => exact ⟨_, rfl⟩
  | andReg x y => exact ⟨_, rfl⟩
  | xorReg x y => exact ⟨_, rfl⟩
  | addReg x y => exact ⟨_, rfl⟩
  | sub x y => exact ⟨_, rfl⟩
  | shr x y => exact ⟨_, rfl⟩
  | subn x y => exact ⟨_, rfl⟩
  | shl x y => exact ⟨_, rfl⟩
  | sneReg x y => exact ⟨_, rfl⟩
  | ldI nnn => exact ⟨_, rfl⟩
  | jpV0 nnn => exact ⟨_, rfl⟩
  | rnd x nn => exact ⟨_, rfl⟩
  | skp x => exact ⟨_, rfl⟩
  | sknp x => exact ⟨_, rfl⟩
  | ldVxDt x => exact ⟨_, rfl⟩
  | ldVxK x => exact ⟨_, rfl⟩
  | ldDtVx x => exact ⟨_, rfl⟩
  | ldStVx x => exact ⟨_, rfl⟩
  | addIVx x => exact ⟨_, rfl⟩
  | ldFVx x => exact ⟨_, rfl⟩

/-- A fetch inside Memory reads the two bytes at `PC` (R72). -/
theorem fetch_eq_some {s : State} (h : s.pc.toNat ≤ 0xFFE) :
    fetch s = some [s.byteAt s.pc.toNat, s.byteAt (s.pc.toNat + 1)] := by
  have h1 : s.pc.toNat < Config.memSize := by simp only [Config.memSize]; omega
  have h2 : s.pc.toNat + 1 < Config.memSize := by simp only [Config.memSize]; omega
  simp only [fetch, memRead, h1, h2, if_true]

/-- A fetch that leaves Memory is none (R72). -/
theorem fetch_eq_none {s : State} (h : 0xFFE < s.pc.toNat) : fetch s = none := by
  have h2 : ¬ s.pc.toNat + 1 < Config.memSize := by simp only [Config.memSize]; omega
  simp only [fetch, memRead, h2, if_false]
  split
  · rename_i hn
    exact absurd hn (by simp)
  · rfl

/-- What a step can do, in the four cases of rules R71, R72, R77 and R78: nothing in HALT; a wait step; the fetch fault;
a word with no instruction; or the dispatched instruction's meaning. -/
theorem stepByMode_cases (s : State) :
    (s.mode = .halt ∧ stepByMode s = .next s) ∨
    (s.mode = .waitKey ∧
      stepByMode s = .next (popInput (wakeUp (nextInput s).keyEvent (timerEval (nextInput s).k s)))) ∨
    (s.mode = .run ∧ 0xFFE < s.pc.toNat ∧ stepByMode s = .next (popInput (raise .outOfBounds s.pc none s))) ∨
    (s.mode = .run ∧ s.pc.toNat ≤ 0xFFE ∧
      decodeWord (opcodeOf (s.byteAt s.pc.toNat) (s.byteAt (s.pc.toNat + 1))) = .unknownOpcode ∧
      stepByMode s = .next (popInput (raise .unknownOpcode s.pc
        (some (opcodeOf (s.byteAt s.pc.toNat) (s.byteAt (s.pc.toNat + 1)))) (beforeDispatch s)))) ∨
    (∃ i t, s.mode = .run ∧ s.pc.toNat ≤ 0xFFE ∧
      decodeWord (opcodeOf (s.byteAt s.pc.toNat) (s.byteAt (s.pc.toNat + 1))) = .instr i ∧
      exec i (beforeDispatch s) = .next t ∧ stepByMode s = .next (popInput t)) := by
  rcases hm : s.mode with _ | _ | _
  · by_cases hpc : s.pc.toNat ≤ 0xFFE
    · have hf := fetch_eq_some hpc
      rcases hd : decodeWord (opcodeOf (s.byteAt s.pc.toNat) (s.byteAt (s.pc.toNat + 1))) with i | _
      · obtain ⟨t, ht⟩ := exec_next i (beforeDispatch s)
        refine .inr (.inr (.inr (.inr ⟨i, t, rfl, hpc, rfl, ht, ?_⟩)))
        simp only [stepByMode, hm, runCycle, hf, dispatch, decode, hd, ht, endStep]
      · refine .inr (.inr (.inr (.inl ⟨rfl, hpc, rfl, ?_⟩)))
        simp only [stepByMode, hm, runCycle, hf, dispatch, decode, hd, endStep, opcodeIn]
    · refine .inr (.inr (.inl ⟨rfl, by omega, ?_⟩))
      simp only [stepByMode, hm, runCycle, fetch_eq_none (show 0xFFE < s.pc.toNat by omega)]
  · exact .inr (.inl ⟨rfl, by simp only [stepByMode, hm, waitStep]⟩)
  · exact .inl ⟨rfl, by simp only [stepByMode, hm, haltStep]⟩

end Sys2Proof.Machine
end

