-- ==== Sys2Proof/Laws/PerInstr.lean ====
section
/-! SUPPORT. Laws of the instructions as syntax, one lemma per constructor. -/

namespace Sys2Proof.Laws

open Sys2Proof

/-- The `mask` and `match` of an instruction's row of spec/opcode_table.json, written out from that file. -/
def EncodesTableRow.row : Instr → Word × Word
  | .cls => (0xFFFF#16, 0x00E0#16)
  | .ret => (0xFFFF#16, 0x00EE#16)
  | .sys _ => (0xF000#16, 0x0000#16)
  | .jp _ => (0xF000#16, 0x1000#16)
  | .call _ => (0xF000#16, 0x2000#16)
  | .seImm _ _ => (0xF000#16, 0x3000#16)
  | .sneImm _ _ => (0xF000#16, 0x4000#16)
  | .seReg _ _ => (0xF00F#16, 0x5000#16)
  | .ldImm _ _ => (0xF000#16, 0x6000#16)
  | .addImm _ _ => (0xF000#16, 0x7000#16)
  | .ldReg _ _ => (0xF00F#16, 0x8000#16)
  | .orReg _ _ => (0xF00F#16, 0x8001#16)
  | .andReg _ _ => (0xF00F#16, 0x8002#16)
  | .xorReg _ _ => (0xF00F#16, 0x8003#16)
  | .addReg _ _ => (0xF00F#16, 0x8004#16)
  | .sub _ _ => (0xF00F#16, 0x8005#16)
  | .shr _ _ => (0xF00F#16, 0x8006#16)
  | .subn _ _ => (0xF00F#16, 0x8007#16)
  | .shl _ _ => (0xF00F#16, 0x800E#16)
  | .sneReg _ _ => (0xF00F#16, 0x9000#16)
  | .ldI _ => (0xF000#16, 0xA000#16)
  | .jpV0 _ => (0xF000#16, 0xB000#16)
  | .rnd _ _ => (0xF000#16, 0xC000#16)
  | .drw _ _ _ => (0xF000#16, 0xD000#16)
  | .skp _ => (0xF0FF#16, 0xE09E#16)
  | .sknp _ => (0xF0FF#16, 0xE0A1#16)
  | .ldVxDt _ => (0xF0FF#16, 0xF007#16)
  | .ldVxK _ => (0xF0FF#16, 0xF00A#16)
  | .ldDtVx _ => (0xF0FF#16, 0xF015#16)
  | .ldStVx _ => (0xF0FF#16, 0xF018#16)
  | .addIVx _ => (0xF0FF#16, 0xF01E#16)
  | .ldFVx _ => (0xF0FF#16, 0xF029#16)
  | .ldBVx _ => (0xF0FF#16, 0xF033#16)
  | .ldMemVx _ => (0xF0FF#16, 0xF055#16)
  | .ldVxMem _ => (0xF0FF#16, 0xF065#16)

/-- An instruction's word selects its row of the table (spec/30_encoding.md: "a word w selects the row iff
`w & mask = match`"), and a well-formed `0nnn` is neither of the two words whose rows go before its own. -/
def EncodesTableRow.Statement (i : Instr) : Prop :=
  encodeWord i &&& (EncodesTableRow.row i).1 = (EncodesTableRow.row i).2 ∧
  (∀ nnn, i = .sys nnn → i.wellFormed = true → encodeWord i ≠ 0x00E0#16 ∧ encodeWord i ≠ 0x00EE#16)

theorem EncodesTableRow.cls : EncodesTableRow.Statement .cls :=
  ⟨rfl, fun _ h => nomatch h⟩

theorem EncodesTableRow.ret : EncodesTableRow.Statement .ret :=
  ⟨rfl, fun _ h => nomatch h⟩

theorem EncodesTableRow.sys (nnn : Addr12) : EncodesTableRow.Statement (.sys nnn) := by
  refine ⟨(mask_nnn _ nnn).trans rfl, fun m hm hwf => ?_⟩
  simp only [Instr.wellFormed, Bool.and_eq_true, decide_eq_true_eq] at hwf
  refine ⟨fun h => hwf.1 ?_, fun h => hwf.2 ?_⟩
  · have e := (fieldsOf_nnn 0x0#4 nnn).2
    rw [← e]
    exact congrArg (fun w => (fieldsOf w).nnn) h
  · have e := (fieldsOf_nnn 0x0#4 nnn).2
    rw [← e]
    exact congrArg (fun w => (fieldsOf w).nnn) h

theorem EncodesTableRow.jp (nnn : Addr12) : EncodesTableRow.Statement (.jp nnn) :=
  ⟨(mask_nnn _ nnn).trans rfl, fun _ h => nomatch h⟩

theorem EncodesTableRow.call (nnn : Addr12) : EncodesTableRow.Statement (.call nnn) :=
  ⟨(mask_nnn _ nnn).trans rfl, fun _ h => nomatch h⟩

theorem EncodesTableRow.seImm (x : Reg) (nn : Byte) : EncodesTableRow.Statement (.seImm x nn) :=
  ⟨(mask_xnn _ x nn).trans rfl, fun _ h => nomatch h⟩

theorem EncodesTableRow.sneImm (x : Reg) (nn : Byte) : EncodesTableRow.Statement (.sneImm x nn) :=
  ⟨(mask_xnn _ x nn).trans rfl, fun _ h => nomatch h⟩

theorem EncodesTableRow.seReg (x : Reg) (y : Reg) : EncodesTableRow.Statement (.seReg x y) :=
  ⟨(mask_xy _ x y _).trans rfl, fun _ h => nomatch h⟩

theorem EncodesTableRow.ldImm (x : Reg) (nn : Byte) : EncodesTableRow.Statement (.ldImm x nn) :=
  ⟨(mask_xnn _ x nn).trans rfl, fun _ h => nomatch h⟩

theorem EncodesTableRow.addImm (x : Reg) (nn : Byte) : EncodesTableRow.Statement (.addImm x nn) :=
  ⟨(mask_xnn _ x nn).trans rfl, fun _ h => nomatch h⟩

theorem EncodesTableRow.ldReg (x : Reg) (y : Reg) : EncodesTableRow.Statement (.ldReg x y) :=
  ⟨(mask_xy _ x y _).trans rfl, fun _ h => nomatch h⟩

theorem EncodesTableRow.orReg (x : Reg) (y : Reg) : EncodesTableRow.Statement (.orReg x y) :=
  ⟨(mask_xy _ x y _).trans rfl, fun _ h => nomatch h⟩

theorem EncodesTableRow.andReg (x : Reg) (y : Reg) : EncodesTableRow.Statement (.andReg x y) :=
  ⟨(mask_xy _ x y _).trans rfl, fun _ h => nomatch h⟩

theorem EncodesTableRow.xorReg (x : Reg) (y : Reg) : EncodesTableRow.Statement (.xorReg x y) :=
  ⟨(mask_xy _ x y _).trans rfl, fun _ h => nomatch h⟩

theorem EncodesTableRow.addReg (x : Reg) (y : Reg) : EncodesTableRow.Statement (.addReg x y) :=
  ⟨(mask_xy _ x y _).trans rfl, fun _ h => nomatch h⟩

theorem EncodesTableRow.sub (x : Reg) (y : Reg) : EncodesTableRow.Statement (.sub x y) :=
  ⟨(mask_xy _ x y _).trans rfl, fun _ h => nomatch h⟩

theorem EncodesTableRow.shr (x : Reg) (y : Reg) : EncodesTableRow.Statement (.shr x y) :=
  ⟨(mask_xy _ x y _).trans rfl, fun _ h => nomatch h⟩

theorem EncodesTableRow.subn (x : Reg) (y : Reg) : EncodesTableRow.Statement (.subn x y) :=
  ⟨(mask_xy _ x y _).trans rfl, fun _ h => nomatch h⟩

theorem EncodesTableRow.shl (x : Reg) (y : Reg) : EncodesTableRow.Statement (.shl x y) :=
  ⟨(mask_xy _ x y _).trans rfl, fun _ h => nomatch h⟩

theorem EncodesTableRow.sneReg (x : Reg) (y : Reg) : EncodesTableRow.Statement (.sneReg x y) :=
  ⟨(mask_xy _ x y _).trans rfl, fun _ h => nomatch h⟩

theorem EncodesTableRow.ldI (nnn : Addr12) : EncodesTableRow.Statement (.ldI nnn) :=
  ⟨(mask_nnn _ nnn).trans rfl, fun _ h => nomatch h⟩

theorem EncodesTableRow.jpV0 (nnn : Addr12) : EncodesTableRow.Statement (.jpV0 nnn) :=
  ⟨(mask_nnn _ nnn).trans rfl, fun _ h => nomatch h⟩

theorem EncodesTableRow.rnd (x : Reg) (nn : Byte) : EncodesTableRow.Statement (.rnd x nn) :=
  ⟨(mask_xnn _ x nn).trans rfl, fun _ h => nomatch h⟩

theorem EncodesTableRow.drw (x : Reg) (y : Reg) (n : Nibble) : EncodesTableRow.Statement (.drw x y n) :=
  ⟨(mask_xyn _ x y n).trans rfl, fun _ h => nomatch h⟩

theorem EncodesTableRow.skp (x : Reg) : EncodesTableRow.Statement (.skp x) :=
  ⟨(mask_x _ x _).trans rfl, fun _ h => nomatch h⟩

theorem EncodesTableRow.sknp (x : Reg) : EncodesTableRow.Statement (.sknp x) :=
  ⟨(mask_x _ x _).trans rfl, fun _ h => nomatch h⟩

theorem EncodesTableRow.ldVxDt (x : Reg) : EncodesTableRow.Statement (.ldVxDt x) :=
  ⟨(mask_x _ x _).trans rfl, fun _ h => nomatch h⟩

theorem EncodesTableRow.ldVxK (x : Reg) : EncodesTableRow.Statement (.ldVxK x) :=
  ⟨(mask_x _ x _).trans rfl, fun _ h => nomatch h⟩

theorem EncodesTableRow.ldDtVx (x : Reg) : EncodesTableRow.Statement (.ldDtVx x) :=
  ⟨(mask_x _ x _).trans rfl, fun _ h => nomatch h⟩

theorem EncodesTableRow.ldStVx (x : Reg) : EncodesTableRow.Statement (.ldStVx x) :=
  ⟨(mask_x _ x _).trans rfl, fun _ h => nomatch h⟩

theorem EncodesTableRow.addIVx (x : Reg) : EncodesTableRow.Statement (.addIVx x) :=
  ⟨(mask_x _ x _).trans rfl, fun _ h => nomatch h⟩

theorem EncodesTableRow.ldFVx (x : Reg) : EncodesTableRow.Statement (.ldFVx x) :=
  ⟨(mask_x _ x _).trans rfl, fun _ h => nomatch h⟩

theorem EncodesTableRow.ldBVx (x : Reg) : EncodesTableRow.Statement (.ldBVx x) :=
  ⟨(mask_x _ x _).trans rfl, fun _ h => nomatch h⟩

theorem EncodesTableRow.ldMemVx (x : Reg) : EncodesTableRow.Statement (.ldMemVx x) :=
  ⟨(mask_x _ x _).trans rfl, fun _ h => nomatch h⟩

theorem EncodesTableRow.ldVxMem (x : Reg) : EncodesTableRow.Statement (.ldVxMem x) :=
  ⟨(mask_x _ x _).trans rfl, fun _ h => nomatch h⟩

end Sys2Proof.Laws
end

