-- ==== Sys2Proof/Tests/Slice0.lean ====
section
/-! SUPPORT. Tests: the well-formedness smoke, decoding of words written out from spec/30_encoding.md, one step per
instruction against the vectors of spec/95_test_vectors.md (named S, T or P as there), and a witness for the hypotheses
of every statement. Expected results come from the spec, never from the model. -/

namespace Sys2Proof.Tests

open Sys2Proof Sys2Proof.Machine Sys2Proof.Claims

/-! ### Well-formedness -/

theorem test_wf_sys_spelled_as_cls : Instr.wellFormed (.sys 0x0E0#12) = false := by decide
theorem test_wf_sys_spelled_as_ret : Instr.wellFormed (.sys 0x0EE#12) = false := by decide
theorem test_wf_sys_between : Instr.wellFormed (.sys 0x0E1#12) = true := by decide

/-! ### Decoding: every constructor, each word from the opcode maps of rules R55 to R58 -/

theorem test_decode_cls : decode [0x00#8, 0xE0#8] = .instr .cls [] := by decide
theorem test_decode_ret : decode [0x00#8, 0xEE#8] = .instr .ret [] := by decide
theorem test_decode_sys : decode [0x01#8, 0x23#8] = .instr (.sys 0x123#12) [] := by decide
theorem test_decode_sys_near_cls : decode [0x01#8, 0xE0#8] = .instr (.sys 0x1E0#12) [] := by decide
theorem test_decode_jp : decode [0x1A#8, 0xBC#8] = .instr (.jp 0xABC#12) [] := by decide
theorem test_decode_call : decode [0x22#8, 0x10#8] = .instr (.call 0x210#12) [] := by decide
theorem test_decode_seImm : decode [0x33#8, 0x2A#8] = .instr (.seImm 0x3#4 0x2A#8) [] := by decide
theorem test_decode_sneImm : decode [0x43#8, 0x2B#8] = .instr (.sneImm 0x3#4 0x2B#8) [] := by decide
theorem test_decode_seReg : decode [0x51#8, 0x20#8] = .instr (.seReg 0x1#4 0x2#4) [] := by decide
theorem test_decode_ldImm : decode [0x6A#8, 0x2C#8] = .instr (.ldImm 0xA#4 0x2C#8) [] := by decide
theorem test_decode_addImm : decode [0x7F#8, 0x01#8] = .instr (.addImm 0xF#4 0x01#8) [] := by decide
theorem test_decode_ldReg : decode [0x81#8, 0x20#8] = .instr (.ldReg 0x1#4 0x2#4) [] := by decide
theorem test_decode_orReg : decode [0x81#8, 0x21#8] = .instr (.orReg 0x1#4 0x2#4) [] := by decide
theorem test_decode_andReg : decode [0x81#8, 0x22#8] = .instr (.andReg 0x1#4 0x2#4) [] := by decide
theorem test_decode_xorReg : decode [0x81#8, 0x23#8] = .instr (.xorReg 0x1#4 0x2#4) [] := by decide
theorem test_decode_addReg : decode [0x81#8, 0x24#8] = .instr (.addReg 0x1#4 0x2#4) [] := by decide
theorem test_decode_sub : decode [0x81#8, 0x25#8] = .instr (.sub 0x1#4 0x2#4) [] := by decide
theorem test_decode_shr : decode [0x81#8, 0x26#8] = .instr (.shr 0x1#4 0x2#4) [] := by decide
theorem test_decode_subn : decode [0x81#8, 0x27#8] = .instr (.subn 0x1#4 0x2#4) [] := by decide
theorem test_decode_shl : decode [0x81#8, 0x2E#8] = .instr (.shl 0x1#4 0x2#4) [] := by decide
theorem test_decode_sneReg : decode [0x91#8, 0x20#8] = .instr (.sneReg 0x1#4 0x2#4) [] := by decide
theorem test_decode_ldI : decode [0xA2#8, 0x0C#8] = .instr (.ldI 0x20C#12) [] := by decide
theorem test_decode_jpV0 : decode [0xB3#8, 0x00#8] = .instr (.jpV0 0x300#12) [] := by decide
theorem test_decode_rnd : decode [0xC3#8, 0x0F#8] = .instr (.rnd 0x3#4 0x0F#8) [] := by decide
theorem test_decode_drw : decode [0xD1#8, 0x23#8] = .instr (.drw 0x1#4 0x2#4 0x3#4) [] := by decide
theorem test_decode_skp : decode [0xE2#8, 0x9E#8] = .instr (.skp 0x2#4) [] := by decide
theorem test_decode_sknp : decode [0xE2#8, 0xA1#8] = .instr (.sknp 0x2#4) [] := by decide
theorem test_decode_ldVxDt : decode [0xF3#8, 0x07#8] = .instr (.ldVxDt 0x3#4) [] := by decide
theorem test_decode_ldVxK : decode [0xF3#8, 0x0A#8] = .instr (.ldVxK 0x3#4) [] := by decide
theorem test_decode_ldDtVx : decode [0xF0#8, 0x15#8] = .instr (.ldDtVx 0x0#4) [] := by decide
theorem test_decode_ldStVx : decode [0xF1#8, 0x18#8] = .instr (.ldStVx 0x1#4) [] := by decide
theorem test_decode_addIVx : decode [0xF2#8, 0x1E#8] = .instr (.addIVx 0x2#4) [] := by decide
theorem test_decode_ldFVx : decode [0xF4#8, 0x29#8] = .instr (.ldFVx 0x4#4) [] := by decide
theorem test_decode_ldBVx : decode [0xF0#8, 0x33#8] = .instr (.ldBVx 0x0#4) [] := by decide
theorem test_decode_ldMemVx : decode [0xF2#8, 0x55#8] = .instr (.ldMemVx 0x2#4) [] := by decide
theorem test_decode_ldVxMem : decode [0xF2#8, 0x65#8] = .instr (.ldVxMem 0x2#4) [] := by decide
/-- Words of rule R59 (T68, T69, T126 to T129). -/
theorem test_decode_rejects : [0x8128#16, 0x812F#16, 0x5121#16, 0x9121#16, 0xE29F#16, 0xF200#16, 0xFFFF#16].map decodeWord =
    List.replicate 7 WordDecode.unknownOpcode := by decide
theorem test_decode_truncated : decode [0x60#8] = .truncated := by decide
theorem test_decodeTableWord : decodeTableWord 16 0xD123 = some (.drw 0x1#4 0x2#4 0x3#4) := by decide

/-! ### One step -/

/-- The start of a vector: the word at 0x200, and one quiet input record. -/
def start (op : Nat) : State := { State.reset.withFetchWord 16 op with inputs := [Input.quiet] }

/-- Registers set before the step. -/
def withRegs (l : List (Reg × Byte)) (s : State) : State := l.foldl (fun t p => t.setReg p.1 p.2) s

/-- Bytes set before the step. -/
def withBytes (l : List (Nat × Byte)) (s : State) : State := l.foldl (fun t p => t.setByte p.1 p.2) s

/-- What one step of a state shows. -/
def after {α : Type} (f : State → α) (s : State) : Option α :=
  match step s with
  | .next t => some (f t)
  | .fault _ => none
  | .refused _ => none

/-- `ERR`, its kind as a code, and `PC`. -/
structure Halt where
  code : Nat
  addr : Word
  op : Option Word
  pc : Word
  deriving DecidableEq, Repr

/-- `ERR` and `PC` of a halted state. -/
def halted (s : State) : Option Halt :=
  if s.mode = .halt then some ⟨s.err.kind.code, s.err.pc, s.err.op, s.pc⟩ else none

/-- `V1`, `V2` and `VF`. -/
def v12f (s : State) : Byte × Byte × Byte := (s.reg 0x1#4, s.reg 0x2#4, s.reg 0xF#4)

theorem test_S7_cls : after (fun t => ((t.byteAt 0xEFF, t.byteAt 0xF00, t.byteAt 0xFFF), t.byteAt 0x201, t.out, t.pc))
    (withBytes [(0xEFF, 0xAA#8), (0xF00, 0xFF#8), (0xFFF, 0x01#8)] (start 0x00E0)) =
    some ((0xAA#8, 0x00#8, 0x00#8), 0xE0#8, [], 0x202#16) := by decide +kernel
theorem test_T29_ret : after (fun t => (t.pc, t.sp))
    { start 0x00EE with sp := 2, stk := ((Vector.replicate 16 0#16).set 0 0x400#16).set 1 0x5A2#16 } =
    some (0x5A2#16, 1) := by decide
theorem test_P5_ret_underflow : after (fun t => (halted t, t.sp, t.out)) (start 0x00EE) =
    some (some ⟨3, 0x200#16, some 0x00EE#16, 0x202#16⟩, 0, [.fatal .stackUnderflow 0x200#16 (some 0x00EE#16)]) := by
  decide
theorem test_T31_sys : after halted (start 0x0000) = some (some ⟨2, 0x200#16, some 0x0000#16, 0x202#16⟩) := by decide
theorem test_T10_jp : after (fun t => t.pc) (start 0x1ABC) = some 0xABC#16 := by decide
theorem test_T26_call : after (fun t => (t.pc, t.sp, t.stk[15])) { start 0x2300 with sp := 15 } =
    some (0x300#16, 16, 0x202#16) := by decide
theorem test_T27_call_overflow : after (fun t => (halted t, t.sp)) { start 0x2300 with sp := 16 } =
    some (some ⟨4, 0x200#16, some 0x2300#16, 0x202#16⟩, 16) := by decide
theorem test_T15_seImm : after (fun t => t.pc) (withRegs [(0x3#4, 0x2A#8)] (start 0x332A)) = some 0x204#16 := by decide
theorem test_T16_seImm : after (fun t => t.pc) (withRegs [(0x3#4, 0x2A#8)] (start 0x332B)) = some 0x202#16 := by decide
theorem test_T17_sneImm : after (fun t => t.pc) (withRegs [(0x3#4, 0x2A#8)] (start 0x432A)) = some 0x202#16 := by decide
theorem test_T18_sneImm : after (fun t => t.pc) (withRegs [(0x3#4, 0x2A#8)] (start 0x432B)) = some 0x204#16 := by decide
theorem test_T19_seReg : after (fun t => t.pc) (withRegs [(0x1#4, 7#8), (0x2#4, 7#8)] (start 0x5120)) = some 0x204#16 := by
  decide
theorem test_T20_seReg : after (fun t => t.pc) (withRegs [(0x1#4, 7#8), (0x2#4, 8#8)] (start 0x5120)) = some 0x202#16 := by
  decide
theorem test_S1_ldImm : after (fun t => (t.reg 0xA#4, t.pc)) (start 0x6A2C) = some (0x2C#8, 0x202#16) := by decide
theorem test_S2_addImm : after (fun t => (t.reg 0x3#4, t.reg 0xF#4)) (withRegs [(0x3#4, 0xFF#8)] (start 0x7302)) =
    some (0x01#8, 0x00#8) := by decide
theorem test_T63_addImm_vf : after (fun t => t.reg 0xF#4) (withRegs [(0xF#4, 0xFF#8)] (start 0x7F01)) = some 0x00#8 := by
  decide
theorem test_T40_ldReg : after v12f (withRegs [(0x2#4, 0x7E#8)] (start 0x8120)) = some (0x7E#8, 0x7E#8, 0x00#8) := by
  decide
theorem test_T41_orReg : after v12f (withRegs [(0x1#4, 0xF0#8), (0x2#4, 0x3C#8), (0xF#4, 1#8)] (start 0x8121)) =
    some (0xFC#8, 0x3C#8, 1#8) := by decide
theorem test_T42_andReg : after v12f (withRegs [(0x1#4, 0xF0#8), (0x2#4, 0x3C#8), (0xF#4, 1#8)] (start 0x8122)) =
    some (0x30#8, 0x3C#8, 1#8) := by decide
theorem test_T43_xorReg : after v12f (withRegs [(0x1#4, 0xF0#8), (0x2#4, 0x3C#8), (0xF#4, 1#8)] (start 0x8123)) =
    some (0xCC#8, 0x3C#8, 1#8) := by decide
theorem test_S3_addReg : after v12f (withRegs [(0x1#4, 0xFF#8), (0x2#4, 0x01#8)] (start 0x8124)) =
    some (0x00#8, 0x01#8, 1#8) := by decide
theorem test_T46_addReg_y_is_vf : after v12f (withRegs [(0x1#4, 0x10#8), (0xF#4, 0x01#8)] (start 0x81F4)) =
    some (0x11#8, 0x00#8, 0#8) := by decide
theorem test_S4_sub : after v12f (withRegs [(0x1#4, 0x01#8), (0x2#4, 0x02#8)] (start 0x8125)) =
    some (0xFF#8, 0x02#8, 1#8) := by decide
theorem test_T48_sub_x_is_vf : after v12f (withRegs [(0xF#4, 0x05#8), (0x1#4, 0x02#8)] (start 0x8F15)) =
    some (0x02#8, 0x00#8, 0#8) := by decide
theorem test_T57_shr : after v12f (withRegs [(0x1#4, 0xFE#8), (0x2#4, 0x01#8), (0xF#4, 1#8)] (start 0x8126)) =
    some (0x7F#8, 0x01#8, 0#8) := by decide
theorem test_T59_shr_x_is_vf : after (fun t => t.reg 0xF#4) (withRegs [(0xF#4, 0x07#8)] (start 0x8F06)) = some 0x03#8 := by
  decide
theorem test_T54_subn : after v12f (withRegs [(0x1#4, 0x02#8), (0x2#4, 0x01#8)] (start 0x8127)) =
    some (0xFF#8, 0x01#8, 1#8) := by decide
theorem test_T55_subn : after v12f (withRegs [(0x1#4, 0x01#8), (0x2#4, 0x03#8), (0xF#4, 1#8)] (start 0x8127)) =
    some (0x02#8, 0x03#8, 0#8) := by decide
theorem test_T60_shl : after v12f (withRegs [(0x1#4, 0xFF#8)] (start 0x812E)) = some (0xFE#8, 0x00#8, 1#8) := by decide
theorem test_T62_shl_x_is_vf : after (fun t => t.reg 0xF#4) (withRegs [(0xF#4, 0x81#8)] (start 0x8F0E)) = some 0x02#8 := by
  decide
theorem test_T22_sneReg : after (fun t => t.pc) (withRegs [(0x1#4, 7#8), (0x2#4, 8#8)] (start 0x9120)) = some 0x204#16 := by
  decide
theorem test_T24_sneReg : after (fun t => t.pc) (start 0x9330) = some 0x202#16 := by decide
theorem test_T70_ldI : after (fun t => t.i) (start 0xAFFF) = some 0xFFF#16 := by decide
theorem test_T13_jpV0 : after (fun t => (t.pc, t.mode)) (withRegs [(0x0#4, 0xFF#8)] (start 0xBFFF)) =
    some (0x10FE#16, .run) := by decide
theorem test_T65_rnd : after (fun t => (t.reg 0x3#4, t.inputs))
    { start 0xC30F with inputs := [{ Input.quiet with rnd := 0xA7#8 }, Input.quiet] } = some (0x07#8, [Input.quiet]) := by
  decide
theorem test_T92_drw_straddles_and_collides : after (fun t => (t.byteAt 0xF00, t.byteAt 0xF01, t.reg 0xF#4))
    (withBytes [(0x300, 0xFF#8), (0xF01, 0x10#8)] { withRegs [(0x0#4, 4#8)] (start 0xD011) with i := 0x300#16 }) =
    some (0x0F#8, 0xE0#8, 1#8) := by decide
theorem test_T97_drw_clips_at_the_bottom : after (fun t => (t.byteAt 0xFF0, t.byteAt 0xFF8, t.reg 0xF#4, t.out.length))
    (withBytes [(0x300, 0x80#8), (0x301, 0x40#8), (0x302, 0x20#8)]
      { withRegs [(0x1#4, 30#8)] (start 0xD013) with i := 0x300#16 }) = some (0x80#8, 0x40#8, 0#8, 1) := by decide
theorem test_T117_skp : after (fun t => t.pc)
    { withRegs [(0x2#4, 5#8)] (start 0xE29E) with inputs := [{ Input.quiet with keys := 0x0020#16 }] } =
    some 0x204#16 := by decide
theorem test_T121_skp_above_15 : after (fun t => t.pc)
    { withRegs [(0x2#4, 0x15#8)] (start 0xE29E) with inputs := [{ Input.quiet with keys := 0xFFFF#16 }] } =
    some 0x202#16 := by decide
theorem test_T119_sknp : after (fun t => t.pc)
    { withRegs [(0x2#4, 5#8)] (start 0xE2A1) with inputs := [{ Input.quiet with keys := 0x0020#16 }] } =
    some 0x202#16 := by decide
theorem test_T122_sknp_above_15 : after (fun t => t.pc)
    { withRegs [(0x2#4, 0x15#8)] (start 0xE2A1) with inputs := [{ Input.quiet with keys := 0xFFFF#16 }] } =
    some 0x204#16 := by decide
theorem test_T110_ldVxDt : after (fun t => (t.dt, t.reg 0x3#4))
    { start 0xF307 with dt := 5#8, inputs := [{ Input.quiet with k := 2 }] } = some (3#8, 3#8) := by decide
theorem test_T123_ldVxK : after (fun t => (t.mode, t.wx, t.pc, t.reg 0x3#4))
    { start 0xF30A with inputs := [{ Input.quiet with keyEvent := some 7#4 }] } =
    some (.waitKey, 0x3#4, 0x202#16, 0#8) := by decide
theorem test_T111_ldDtVx : after (fun t => t.dt)
    { withRegs [(0x0#4, 0x3C#8)] (start 0xF015) with dt := 2#8, inputs := [{ Input.quiet with k := 9 }] } =
    some 0x3C#8 := by decide
theorem test_T113_ldStVx_stops : after (fun t => (t.st, t.out)) { start 0xF118 with st := 5#8 } =
    some (0#8, [.audioStop]) := by decide
theorem test_T116_ldStVx : after (fun t => (t.st, t.out))
    { withRegs [(0x1#4, 3#8)] (start 0xF118) with st := 1#8, inputs := [{ Input.quiet with k := 1 }] } =
    some (3#8, [.audioStop, .audioStart]) := by decide
theorem test_T73_addIVx : after (fun t => (t.i, t.reg 0xF#4)) { withRegs [(0x2#4, 0xFF#8)] (start 0xF21E) with i := 0xFF0#16 } =
    some (0x0EF#16, 0#8) := by decide
theorem test_T75_ldFVx : after (fun t => t.i) (withRegs [(0x4#4, 0xFF#8)] (start 0xF429)) = some 0x4FB#16 := by decide
theorem test_T78_ldBVx : after (fun t => (t.byteAt 0xFFD, t.byteAt 0xFFE, t.byteAt 0xFFF, t.mode))
    { withRegs [(0x0#4, 255#8)] (start 0xF033) with i := 0xFFD#16 } = some (2#8, 5#8, 5#8, .run) := by decide
theorem test_T79_ldBVx_faults : after (fun t => (t.byteAt 0xFFE, t.byteAt 0xFFF, halted t))
    { withRegs [(0x0#4, 123#8)] (start 0xF033) with i := 0xFFE#16 } =
    some (1#8, 2#8, some ⟨5, 0x200#16, some 0xF033#16, 0x202#16⟩) := by decide
theorem test_T80_ldMemVx : after (fun t => (t.byteAt 0x400, t.byteAt 0x40F, t.byteAt 0x410, t.i))
    { withRegs [(0x0#4, 1#8), (0xF#4, 0x5A#8)] (start 0xFF55) with i := 0x400#16 } =
    some (1#8, 0x5A#8, 0#8, 0x400#16) := by decide
theorem test_T81_ldMemVx_faults : after (fun t => (t.byteAt 0xFFE, t.byteAt 0xFFF, halted t, t.i))
    { withRegs [(0x0#4, 0x11#8), (0x1#4, 0x22#8), (0x2#4, 0x33#8)] (start 0xF255) with i := 0xFFE#16 } =
    some (0x11#8, 0x22#8, some ⟨5, 0x200#16, some 0xF255#16, 0x202#16⟩, 0xFFE#16) := by decide
theorem test_T83_ldVxMem : after (fun t => (t.reg 0x0#4, t.reg 0x1#4, t.i)) { start 0xF165 with i := 0x200#16 } =
    some (0xF1#8, 0x65#8, 0x200#16) := by decide
theorem test_T82_ldVxMem_faults : after (fun t => (t.reg 0x0#4, t.reg 0x1#4, t.reg 0x2#4, halted t))
    (withBytes [(0xFFE, 0xAA#8), (0xFFF, 0xBB#8)]
      { withRegs [(0x2#4, 0x77#8)] (start 0xF265) with i := 0xFFE#16 }) =
    some (0xAA#8, 0xBB#8, 0x77#8, some ⟨5, 0x200#16, some 0xF265#16, 0x202#16⟩) := by decide

/-! ### The other steps -/

theorem test_T4_fetch_fault : after (fun t => (halted t, t.dt))
    { start 0x0000 with pc := 0xFFF#16, dt := 5#8, inputs := [{ Input.quiet with k := 3 }] } =
    some (some ⟨5, 0xFFF#16, none, 0xFFF#16⟩, 5#8) := by decide
theorem test_S10_unknown_after_the_timers : after (fun t => (halted t, t.dt, t.st, t.out))
    { start 0x5121 with dt := 5#8, st := 2#8, inputs := [{ Input.quiet with k := 3 }] } =
    some (some ⟨1, 0x200#16, some 0x5121#16, 0x202#16⟩, 2#8, 0#8,
      [.audioStop, .fatal .unknownOpcode 0x200#16 (some 0x5121#16)]) := by decide
theorem test_T5_halt_absorbs : step { start 0x6000 with mode := .halt, dt := 5#8 } =
    .next { start 0x6000 with mode := .halt, dt := 5#8 } := rfl
theorem test_T124_held_keys_do_not_wake : after (fun t => (t.mode, t.dt, t.pc))
    { start 0x6000 with mode := .waitKey, wx := 0x3#4, dt := 3#8, inputs := [{ Input.quiet with k := 1, keys := 0xFFFF#16 }] } =
    some (.waitKey, 2#8, 0x200#16) := by decide
theorem test_T125_wake_up : after (fun t => (t.mode, t.reg 0x3#4, t.dt, t.pc))
    { start 0x6000 with
      mode := .waitKey, wx := 0x3#4, dt := 2#8, inputs := [{ Input.quiet with k := 1, keyEvent := some 0xB#4 }] } =
    some (.run, 0x0B#8, 1#8, 0x200#16) := by decide
/-- P4: the byte that `F055` stores is the byte fetched next. -/
theorem test_P4_store_is_fetched : after (fun t => wordAtPc t)
    (withBytes [(0x202, 0x00#8), (0x203, 0x06#8)] { withRegs [(0x0#4, 0x12#8)] (start 0xF055) with i := 0x202#16 }) =
    some 0x1206#16 := by decide
theorem test_R156_codes : [Fault.unknownOpcode, .legacyCall, .stackUnderflow, .stackOverflow, .outOfBounds].map Fault.code =
    [1, 2, 3, 4, 5] := by decide
theorem test_R40_load_too_long_is_refused :
    constructWith { fontBase := 0x000#16, progBase := 0xFFF#16 } [] [0x12#8, 0x00#8] = .refused .loadOutOfBounds := rfl
theorem test_G3_font_size : customaryFont.length = Config.fontSize := by decide

/-! ### Witnesses: for each statement with hypotheses a concrete state that meets them, clause by clause -/

/-- A word is dispatched from `start`. -/
theorem dispatches_start (op : Nat) (i : Instr) (h : decodeWord (wordAtPc (start op)) = .instr i) : Dispatches (start op) i :=
  ⟨rfl, show (0x200#16 : Word).toNat ≤ 0xFFE by decide, h⟩

theorem witness_DecodeOfEncode : Instr.wellFormed (.drw 0xF#4 0x0#4 0xF#4) = true ∧ Instr.wellFormed (.sys 0x000#12) = true := by
  decide
theorem witness_EncodeOfDecode : decodeWord 0x00E1#16 = .instr (.sys 0x0E1#12) := by decide

theorem witness_Construction_fits : Config.default.fontBase.toNat + customaryFont.length ≤ 4096 ∧
    (0xFFE#16 : Word).toNat + [0x12#8, 0x00#8].length ≤ 4096 := by decide
theorem witness_Construction_overlap :
    let c : Config := { fontBase := 0x000#16, progBase := 0x001#16 }
    (0 < [0x60#8].length ∧ ¬ (c.progBase.toNat ≤ c.fontBase.toNat + 0 ∧ c.fontBase.toNat + 0 < c.progBase.toNat + 1)) ∧
      (c.progBase.toNat ≤ c.fontBase.toNat + 1 ∧ c.fontBase.toNat + 1 < c.progBase.toNat + 1) ∧
      ¬ (c.progBase.toNat ≤ 2 ∧ 2 < c.progBase.toNat + 1) := by decide
theorem witness_Construction_refused : 4096 < (0xFFF#16 : Word).toNat + [0x12#8, 0x00#8].length := by decide

theorem witness_Reset_fits : ({ start 0x6000 with mode := .halt } : State).cfg.fontBase.toNat + customaryFont.length ≤ 4096 ∧
    ({ start 0x6000 with mode := .halt } : State).cfg.progBase.toNat + [0x12#8, 0x00#8].length ≤ 4096 := by decide
theorem witness_Reset_refused :
    4096 < ({ start 0x6000 with cfg := ⟨0x000#16, 0xFFF#16⟩ } : State).cfg.progBase.toNat + [0x12#8, 0x00#8].length := by decide
/-- Reset out of a halted state with a register, the stack pointer and the trace in use (R175). -/
theorem test_R175_reset_out_of_halt :
    assertReset [] [0x12#8] { withRegs [(0x1#4, 7#8)] (start 0x6000) with mode := .halt, sp := 3, out := [.audioStart] } =
      .next { State.reset with mem := [(0x200, 0x12#8)], inputs := [Input.quiet], out := [.audioStart] } := rfl

theorem witness_StepRuns : Dispatches (start 0x6A2C) (.ldImm 0xA#4 0x2C#8) ∧
    exec (.ldImm 0xA#4 0x2C#8) (atDispatch (start 0x6A2C)) = .next ((atDispatch (start 0x6A2C)).setReg 0xA#4 0x2C#8) ∧
    (start 0x6A2C).inputs = Input.quiet :: [] ∧ State.reset.inputs = [] :=
  ⟨dispatches_start _ _ (by decide), rfl, rfl, rfl⟩
theorem witness_StepAdvances : (start 0x332A).mode = .run ∧ (start 0x332A).pc.toNat ≤ 0xFFE ∧
    (∃ t, step (start 0x332A) = .next t ∧ t.mode ≠ .halt) ∧ (∃ t, step (start 0x0000) = .next t ∧ t.mode = .halt) ∧
    ∃ t, step (withRegs [(0x3#4, 0x2A#8)] (start 0x332A)) = .next t ∧ t.pc.toNat ≠ 0x200 + 2 :=
  ⟨rfl, by decide, ⟨_, rfl, by decide⟩, ⟨_, rfl, by decide⟩, ⟨_, rfl, by decide⟩⟩
theorem witness_Fetch : ({ start 0x6000 with pc := 0xFFE#16 } : State).pc.toNat ≤ 0xFFE ∧
    ({ start 0x6000 with pc := 0xFFF#16 } : State).mode = .run ∧ 0xFFE < ({ start 0x6000 with pc := 0xFFF#16 } : State).pc.toNat := by
  decide
theorem witness_UnknownOpcode : (start 0x5121).mode = .run ∧ (start 0x5121).pc.toNat ≤ 0xFFE ∧
    decodeWord (wordAtPc (start 0x5121)) = .unknownOpcode := by decide
theorem witness_Halt : ({ start 0x6000 with mode := .halt } : State).mode = .halt := rfl

/-- A waiting state with one input record. -/
def waiting (event : Option Key) : State :=
  { start 0x6000 with mode := .waitKey, wx := 0x3#4, inputs := [{ Input.quiet with keyEvent := event }] }

theorem witness_WaitStep : (waiting none).mode = .waitKey ∧ (nextInput (waiting none)).keyEvent = none ∧
    (nextInput (waiting (some 0xB#4))).keyEvent = some 0xB#4 := by decide
/-- `k` equal to the sound timer stops it; one less does not. -/
theorem witness_Timers : ({ State.reset with st := 5#8 } : State).st.toNat ≠ 0 ∧ ({ State.reset with st := 5#8 } : State).st.toNat ≤ 5 ∧
    4 < ({ State.reset with st := 5#8 } : State).st.toNat ∧ State.reset.st.toNat = 0 := by decide
theorem witness_SelfJump : (start 0x1200).atSelfJump := ⟨rfl, 0x200#12, by decide, by decide⟩

theorem witness_Return : ({ start 0x00EE with sp := 1 } : State).sp.val = 0 + 1 ∧ ({ start 0x00EE with sp := 16 } : State).sp.val = 15 + 1 ∧
    (start 0x00EE).sp.val = 0 := by decide
theorem witness_Call : ({ start 0x2300 with sp := 15 } : State).sp.val < 16 ∧ ({ start 0x2300 with sp := 16 } : State).sp.val = 16 := by
  decide
theorem witness_CallThenReturn : (start 0x2300).sp.val < 16 ∧ ∃ t u : State, exec (.call 0x300#12) (start 0x2300) = .next t ∧
    u.sp = t.sp ∧ ∀ (j : Nat) (hj : j < 16), j < t.sp.val → u.stkAt j hj = t.stkAt j hj :=
  ⟨by decide, _, _, rfl, rfl, fun _ _ _ => rfl⟩
theorem witness_RegisterSkips : (withRegs [(0x3#4, 0x2A#8)] (start 0x332A)).reg 0x3#4 = 0x2A#8 ∧
    (start 0x332A).reg 0x3#4 ≠ 0x2A#8 ∧ (start 0x5330).reg 0x3#4 = (start 0x5330).reg 0x3#4 ∧
    (withRegs [(0x1#4, 7#8)] (start 0x9120)).reg 0x1#4 ≠ (withRegs [(0x1#4, 7#8)] (start 0x9120)).reg 0x2#4 ∧
    (0x1#4 : Nibble) ≠ 0x0#4 := by decide
theorem witness_LegacyCall : (0x0E1#12 : Addr12) ≠ 0x0E0#12 ∧ (0x0E1#12 : Addr12) ≠ 0x0EE#12 ∧
    decodeWord 0x0000#16 = .instr (.sys 0x000#12) := by decide
theorem witness_LoadImmediate : Dispatches (start 0x6F2C) (.ldImm 0xF#4 0x2C#8) := dispatches_start _ _ (by decide)
theorem witness_flag_forms : (0xE#4 : Reg) ≠ 0xF#4 := by decide
theorem witness_GlyphAddress : State.reset.cfg.wf := by decide

/-- I + 2 at 0xFFF and one above it; and I itself out of Memory, as `Fx29` can leave it. -/
theorem witness_Bcd : Memory.wf (start 0xF033).mem = true ∧ effBase { start 0xF033 with i := 0xFFD#16 } + 2 ≤ 0xFFF ∧
    0xFFF < effBase { start 0xF033 with i := 0xFFE#16 } + 2 ∧ effBase { start 0xF033 with i := 0xFFE#16 } + 1 ≤ 0xFFF ∧
    0xFFF < effBase { start 0xF033 with i := 0xFFF#16 } + 2 ∧ effBase { start 0xF033 with i := 0xFFF#16 } ≤ 0xFFF ∧
    0xFFF < effBase { start 0xF033 with i := 0x1000#16 } + 2 := by decide
theorem witness_Store_and_Load : Memory.wf (start 0xF155).mem = true ∧
    effBase { start 0xF155 with i := 0xFFE#16 } + (0x1#4 : Reg).toNat ≤ 0xFFF ∧
    0xFFF < effBase { start 0xF155 with i := 0xFFF#16 } + (0x1#4 : Reg).toNat ∧
    ((0x0#4 : Reg).toNat ≤ (0x1#4 : Reg).toNat ∧ effBase { start 0xF155 with i := 0xFFF#16 } + (0x0#4 : Reg).toNat ≤ 0xFFF) ∧
    (0x1#4 : Reg).toNat < (0x2#4 : Reg).toNat := by decide
theorem witness_ClearScreen : Memory.wf (start 0x00E0).mem = true := by decide

/-- One row at the last byte of Memory, and two rows on the bottom row of the screen. -/
theorem witness_DrawCompletes : RowsInBounds 0x1#4 0x1#4 { start 0xD011 with i := 0xFFF#16 } ∧
    RowsInBounds 0x1#4 0x2#4 { withRegs [(0x1#4, 31#8)] (start 0xD012) with i := 0xFFF#16 } ∧
    RowsInBounds 0x1#4 0x0#4 { start 0xD010 with i := 0x1000#16 } := by
  refine ⟨fun r h _ => ?_, fun r _ h => ?_, fun r h _ => absurd h (Nat.not_lt_zero r)⟩
  · have h1 : r < 1 := h
    show 0xFFF + r ≤ 0xFFF
    omega
  · have h1 : 31 + r ≤ 31 := h
    show 0xFFF + r ≤ 0xFFF
    omega

/-- A sprite of one row below the framebuffer, its last byte at 0xEFF, over a clear pixel and beside it. -/
def drawing : State := withBytes [(0xEFF, 0x80#8)] { start 0xD011 with i := 0xEFF#16 }

theorem witness_DrawXors : Memory.wf drawing.mem = true ∧ SpriteBelowScreen 0x1#4 0x1#4 drawing ∧
    SpriteSets 0x0#4 0x1#4 0x1#4 drawing 0 0 ∧ ¬ SpriteSets 0x0#4 0x1#4 0x1#4 drawing 1 0 := by
  refine ⟨by decide, fun r h _ => ?_, ⟨by decide, by decide, by decide, by decide, by decide⟩, fun h => ?_⟩
  · have h1 : r < 1 := h
    show 0xEFF + r < 0xF00
    omega
  · exact absurd h.2.2.2.2 (by decide)
/-- A sprite of three rows in the framebuffer itself, over its own bytes (R137). -/
def overlapping : State := withBytes [(0xF00, 0x80#8), (0xF01, 0x40#8)] { start 0xD013 with i := 0xF00#16 }

theorem witness_DrawIsRowByRow : (0x1#4 : Nibble).toNat = (0x0#4 : Nibble).toNat + 1 ∧ Memory.wf overlapping.mem = true ∧
    RowsInBounds 0x1#4 0x1#4 overlapping ∧ startRow 0x1#4 overlapping + 0 ≤ 31 ∧ overlapping.byteAt 0xF00 = 0x80#8 ∧
    RowSets 0x0#4 overlapping 0x80#8 0 ∧ ¬ RowSets 0x0#4 overlapping 0x80#8 1 := by
  refine ⟨by decide, by decide, fun r h _ => ?_, by decide, by decide, ⟨by decide, by decide, by decide⟩, fun h => ?_⟩
  · have h1 : r < 1 := h
    show 0xF00 + r ≤ 0xFFF
    omega
  · exact absurd h.2.2 (by decide)
/-- The second row of a sprite that starts on the bottom row, its byte out of Memory: not on the screen, so not read. -/
theorem witness_DrawIsRowByRow_below : (0x2#4 : Nibble).toNat = (0x1#4 : Nibble).toNat + 1 ∧
    Memory.wf (withRegs [(0x1#4, 31#8)] (start 0xD012)).mem = true ∧
    31 < startRow 0x1#4 { withRegs [(0x1#4, 31#8)] (start 0xD012) with i := 0xFFF#16 } + (0x1#4 : Nibble).toNat ∧
    RowsInBounds 0x1#4 0x2#4 { withRegs [(0x1#4, 31#8)] (start 0xD012) with i := 0xFFF#16 } :=
  ⟨by decide, by decide, by decide, witness_DrawCompletes.2.1⟩
/-- Row 1 draws the byte as row 0 left it: at x = 8 row 0 turns the 0x40 of 0xF01 into 0xC0, and row 1 puts that 0xC0 on the
second screen row (a machine that read every sprite byte first would put 0x40 there). -/
theorem test_R137_rows_read_in_turn :
    after (fun t => (t.byteAt 0xF00, t.byteAt 0xF01, t.byteAt 0xF09, t.reg 0xF#4)) (withRegs [(0x0#4, 8#8)] overlapping) =
      some (0x80#8, 0xC0#8, 0xC0#8, 0#8) := by decide +kernel

theorem witness_Collision :
    (∃ t, exec (.drw 0x0#4 0x1#4 0x1#4) (withBytes [(0xF00, 0x80#8)] drawing) = .next t ∧
      (withBytes [(0xF00, 0x80#8)] drawing).pixel 0 0 = true ∧ t.pixel 0 0 = false) ∧
    (∃ t, exec (.drw 0x0#4 0x1#4 0x0#4) drawing = .next t ∧ ∀ px py, t.pixel px py = drawing.pixel px py) :=
  ⟨⟨_, rfl, by decide, by decide⟩, ⟨_, rfl, fun _ _ => rfl⟩⟩
theorem witness_DrawTwice : (0x0#4 : Reg) ≠ 0xF#4 ∧ (0x1#4 : Reg) ≠ 0xF#4 ∧ Memory.wf drawing.mem = true ∧
    SpriteBelowScreen 0x1#4 0x1#4 drawing := ⟨by decide, by decide, witness_DrawXors.1, witness_DrawXors.2.1⟩
/-- T99: row 0 is drawn, row 1 is at 0x1000. -/
theorem witness_DrawOutOfBounds : (0x1#4 : Nibble).toNat < (0x2#4 : Nibble).toNat ∧
    startRow 0x1#4 { start 0xD012 with i := 0xFFF#16 } + (0x1#4 : Nibble).toNat ≤ 31 ∧
    0xFFF < effBase { start 0xD012 with i := 0xFFF#16 } + (0x1#4 : Nibble).toNat ∧
    RowsInBounds 0x1#4 0x1#4 { start 0xD012 with i := 0xFFF#16 } :=
  ⟨by decide, by decide, by decide, fun r h _ => by
    have h1 : r < 1 := h
    show 0xFFF + r ≤ 0xFFF
    omega⟩

theorem witness_SoundTimer : (withRegs [(0x1#4, 3#8)] (start 0xF118)).reg 0x1#4 ≠ 0x00#8 ∧ (start 0xF118).reg 0x1#4 = 0x00#8 ∧
    ({ start 0xF118 with st := 5#8 } : State).st ≠ 0x00#8 ∧ (start 0xF118).st = 0x00#8 := by decide
theorem witness_KeySkips :
    let s : State := { withRegs [(0x2#4, 15#8)] (start 0xE29E) with inputs := [{ Input.quiet with keys := 0x8000#16 }] }
    let u : State := { withRegs [(0x2#4, 16#8)] (start 0xE29E) with inputs := [{ Input.quiet with keys := 0xFFFF#16 }] }
    ((s.reg 0x2#4).toNat ≤ 15 ∧ (nextInput s).keys.getLsbD (s.reg 0x2#4).toNat = true) ∧
      ¬ ((u.reg 0x2#4).toNat ≤ 15 ∧ (nextInput u).keys.getLsbD (u.reg 0x2#4).toNat = true) := by decide

theorem witness_StepKeepsInvariants : (start 0x2300).Inv ∧ ∃ t, step (start 0x2300) = .next t :=
  ⟨⟨by decide, by decide, by decide, by decide, fun _ _ h => absurd h (Nat.not_lt_zero _)⟩, _, rfl⟩
theorem witness_ResetMeetsInvariants : Config.wf { fontBase := 0xEAE#16, progBase := 0xEFE#16 } ∧
    ∃ t, constructWith { fontBase := 0xEAE#16, progBase := 0xEFE#16 } customaryFont [0x12#8, 0x00#8] = .next t :=
  ⟨by decide, _, rfl⟩
theorem witness_AudioInSync : (start 0xF118).AudioInSync ∧
    ({ start 0x6000 with st := 2#8, out := [.audioStart] } : State).AudioInSync ∧ ∃ t, step (start 0xF118) = .next t :=
  ⟨by decide, by decide, _, rfl⟩
theorem witness_FatalLast : (start 0x0000).FatalIsLast ∧ (∃ t, step (start 0x0000) = .next t) ∧
    ({ start 0x0000 with
      mode := .halt, err := ⟨.legacyCall, 0x200#16, some 0x0000#16⟩
      out := [.audioStop, .fatal .legacyCall 0x200#16 (some 0x0000#16)] } : State).FatalIsLast := by
  refine ⟨?_, ⟨_, rfl⟩, ?_⟩
  · rw [State.FatalIsLast, if_neg (by decide)]
    rfl
  · unfold State.FatalIsLast
    simp only [if_true]
    exact ⟨[.audioStop], rfl, rfl⟩
theorem witness_StepEmits : (∃ t, step (start 0xF118) = .next t) ∧ (waiting none).mode = .waitKey ∧ (∃ t, step (waiting none) = .next t) ∧
    ∃ t, step { start 0x6000 with mode := .halt } = .next t := ⟨⟨_, rfl⟩, rfl, ⟨_, rfl⟩, ⟨_, rfl⟩⟩
theorem witness_TimersRise : ∃ t, step (start 0x6000) = .next t ∧ (∀ x, ¬ Dispatches (start 0x6000) (.ldDtVx x)) ∧
    ∀ x, ¬ Dispatches (start 0x6000) (.ldStVx x) := by
  have e : decodeWord (wordAtPc (start 0x6000)) = .instr (.ldImm 0x0#4 0x00#8) := by decide
  refine ⟨_, rfl, fun x h => ?_, fun x h => ?_⟩
  all_goals
    have := h.2.2
    rw [e] at this
    cases this
theorem witness_FaultRecords : (∃ t, step (start 0x0000) = .next t ∧ t.mode = .halt) ∧ (start 0x0000).mode = .run ∧
    (start 0x0000).pc.toNat ≤ 0xFFE ∧
    (∃ t, step { start 0x0000 with pc := 0xFFF#16 } = .next t ∧ t.mode = .halt) ∧ 0xFFE < (0xFFF#16 : Word).toNat :=
  ⟨⟨_, rfl, by decide⟩, rfl, by decide, ⟨_, rfl, by decide⟩, by decide⟩
theorem witness_OneFaultKind : (start 0x00EE).mode ≠ .halt ∧ (∃ t, exec .ret (start 0x00EE) = .next t ∧ t.mode = .halt) ∧
    (∃ t, exec (.call 0x300#12) { start 0x2300 with sp := 16 } = .next t ∧ t.mode = .halt) ∧
    (∃ t, exec (.sys 0x000#12) (start 0x0000) = .next t ∧ t.mode = .halt) ∧
    ∃ t, exec (.ldBVx 0x0#4) { start 0xF033 with i := 0xFFE#16 } = .next t ∧ t.mode = .halt :=
  ⟨by decide, ⟨_, rfl, by decide⟩, ⟨_, rfl, by decide⟩, ⟨_, rfl, by decide⟩, ⟨_, rfl, by decide⟩⟩
theorem witness_ModeTransitions : (∃ t, step (start 0xF30A) = .next t ∧ t.mode = .waitKey) ∧
    (waiting (some 0xB#4)).mode = .waitKey ∧ (∃ t, step (waiting (some 0xB#4)) = .next t) ∧
    ∃ t, step { start 0x6000 with mode := .halt } = .next t :=
  ⟨⟨_, rfl, by decide⟩, rfl, ⟨_, rfl⟩, ⟨_, rfl⟩⟩
theorem witness_RegistersWritten : ∃ t, exec (.ldImm 0xA#4 0x2C#8) (start 0x6A2C) = .next t ∧
    t.reg 0xA#4 ≠ (start 0x6A2C).reg 0xA#4 := ⟨_, rfl, by decide⟩
theorem witness_SpecialRegistersWritten : (∃ t, exec (.ldI 0xFFF#12) (start 0xAFFF) = .next t ∧ t.i ≠ (start 0xAFFF).i) ∧
    (∃ t, exec (.call 0x300#12) (start 0x2300) = .next t ∧ t.sp ≠ (start 0x2300).sp ∧ t.stk ≠ (start 0x2300).stk ∧
      t.pc ≠ (start 0x2300).pc) ∧
    (∃ t, exec (.ldDtVx 0x0#4) (withRegs [(0x0#4, 1#8)] (start 0xF015)) = .next t ∧ t.dt ≠ (start 0xF015).dt) ∧
    (∃ t, exec (.ldStVx 0x0#4) (withRegs [(0x0#4, 1#8)] (start 0xF018)) = .next t ∧ t.st ≠ (start 0xF018).st) ∧
    ∃ t, exec (.ldVxK 0x3#4) (start 0xF30A) = .next t ∧ t.wx ≠ (start 0xF30A).wx :=
  ⟨⟨_, rfl, by decide⟩, ⟨_, rfl, by decide, by decide, by decide⟩, ⟨_, rfl, by decide⟩, ⟨_, rfl, by decide⟩,
    ⟨_, rfl, by decide⟩⟩
theorem witness_MemoryWritten :
    (∃ t, exec (.ldBVx 0x0#4) (withRegs [(0x0#4, 1#8)] (start 0xF033)) = .next t ∧ t.byteAt 2 ≠ (start 0xF033).byteAt 2) ∧
    ∃ t, exec (.drw 0x0#4 0x1#4 0x1#4) drawing = .next t ∧ t.byteAt 0xF00 ≠ drawing.byteAt 0xF00 :=
  ⟨⟨_, rfl, by decide⟩, ⟨_, rfl, by decide⟩⟩
/-- Two records that differ in all but `k`, on an instruction that reads none of it. -/
theorem witness_InputsReach :
    let inp := Input.quiet
    let inp' : Input := { k := 0, rnd := 0xA7#8, keys := 0xFFFF#16, keyEvent := some 0xB#4 }
    inp.k = inp'.k ∧ (start 0x6000).mode ≠ .halt ∧ (start 0x6000).mode ≠ .waitKey ∧
      (∀ x nn, ¬ Dispatches { start 0x6000 with inputs := [inp] } (.rnd x nn)) ∧
      ∀ x, ¬ (Dispatches { start 0x6000 with inputs := [inp] } (.skp x) ∨
        Dispatches { start 0x6000 with inputs := [inp] } (.sknp x)) := by
  have e : decodeWord (wordAtPc (start 0x6000)) = .instr (.ldImm 0x0#4 0x00#8) := by decide
  refine ⟨rfl, by decide, by decide, fun x nn h => ?_, fun x h => ?_⟩
  · have h2 : decodeWord (wordAtPc (start 0x6000)) = _ := h.2.2
    rw [e] at h2
    cases h2
  · rcases h with h | h
    all_goals
      have h2 : decodeWord (wordAtPc (start 0x6000)) = _ := h.2.2
      rw [e] at h2
      cases h2
theorem witness_reset_memory_wf : Memory.wf State.reset.mem = true := by decide

end Sys2Proof.Tests
end

section
/-! The input record reaches a step only where the core reads it (R8): every operation but `Cxnn`, `Ex9E` and `ExA1`
commutes with a replacement of the listed records, so two records that agree where they are read give the same step. -/

namespace Sys2Proof.Machine

open Sys2Proof Sys2Proof.Claims

/-! ### The listed records replaced -/

/-- The state with other listed input records. -/
def State.setInputs (s : State) (l : List Input) : State := { s with inputs := l }

/-- A change of state carried through an outcome. -/
def mapNext (f : State → State) : Host.Outcome State Fault Refusal → Host.Outcome State Fault Refusal
  | .next t => .next (f t)
  | .fault e => .fault e
  | .refused r => .refused r

/-- A run of byte accesses, completed or stopped, with other listed input records. -/
def accessInputs (l : List Input) : Except State State → Except State State
  | .ok t => .ok (t.setInputs l)
  | .error t => .error (t.setInputs l)

/-- A run of sprite rows, completed or stopped, with other listed input records. -/
def drawInputs (l : List Input) : Except State (State × Bool) → Except State (State × Bool)
  | .ok (t, hit) => .ok (t.setInputs l, hit)
  | .error t => .error (t.setInputs l)

@[simp] theorem popInput_setInputs_cons (s : State) (inp : Input) (rest : List Input) :
    popInput (s.setInputs (inp :: rest)) = s.setInputs rest := rfl

@[simp] theorem endStep_mapNext_setInputs_cons (o : Host.Outcome State Fault Refusal) (inp : Input) (rest : List Input) :
    endStep (mapNext (·.setInputs (inp :: rest)) o) = mapNext (·.setInputs rest) o := by
  cases o <;> rfl

/-! ### Operations that read no record -/

theorem skipIf_setInputs (c : Bool) (s : State) (l : List Input) :
    skipIf c (s.setInputs l) = (skipIf c s).setInputs l := by
  cases c <;> rfl

theorem audioOf_setInputs (old new : Byte) (s : State) (l : List Input) :
    audioOf old new (s.setInputs l) = (audioOf old new s).setInputs l := by
  unfold audioOf
  split
  · rfl
  · split <;> rfl

theorem timerEval_setInputs (k : Nat) (s : State) (l : List Input) :
    timerEval k (s.setInputs l) = (timerEval k s).setInputs l := by
  simp only [timerEval_eq]
  rfl

theorem wakeUp_setInputs (event : Option Key) (s : State) (l : List Input) :
    wakeUp event (s.setInputs l) = (wakeUp event s).setInputs l := by
  cases event <;> rfl

theorem storeRun_setInputs (xs : List Byte) (a : Nat) (s : State) (l : List Input) :
    storeRun xs a (s.setInputs l) = accessInputs l (storeRun xs a s) := by
  induction xs generalizing a s with
  | nil => rfl
  | cons x xs ih =>
    by_cases ha : a < Config.memSize
    · simp only [storeRun, memWrite, ha, if_true]
      exact ih (a + 1) (s.setByte a x)
    · simp only [storeRun, memWrite, ha, if_false, accessInputs]

theorem loadRun_setInputs (rs : List Reg) (a : Nat) (s : State) (l : List Input) :
    loadRun rs a (s.setInputs l) = accessInputs l (loadRun rs a s) := by
  induction rs generalizing a s with
  | nil => rfl
  | cons r rs ih =>
    by_cases ha : a < Config.memSize
    · simp only [loadRun, memRead, ha, if_true]
      exact ih (a + 1) (s.setReg r (s.byteAt a))
    · simp only [loadRun, memRead, ha, if_false, accessInputs]

theorem endAccess_accessInputs (i : Instr) (r : Except State State) (l : List Input) :
    endAccess i (accessInputs l r) = mapNext (·.setInputs l) (endAccess i r) := by
  cases r <;> rfl

theorem blitRow_setInputs (col sh py : Nat) (b : Byte) (s : State) (l : List Input) :
    blitRow col sh py b (s.setInputs l) = ((blitRow col sh py b s).1.setInputs l, (blitRow col sh py b s).2) := by
  by_cases h : sh ≠ 0 ∧ col < 7
  · simp only [blitRow, if_pos h]
    rfl
  · simp only [blitRow, if_neg h]
    rfl

theorem drawRows_setInputs (col sh py0 base todo r : Nat) (hit : Bool) (s : State) (l : List Input) :
    drawRows col sh py0 base todo r hit (s.setInputs l) = drawInputs l (drawRows col sh py0 base todo r hit s) := by
  induction todo generalizing r hit s with
  | zero => rfl
  | succ todo ih =>
    by_cases hp : py0 + r < Config.screenH
    · by_cases ha : base + r < Config.memSize
      · simp only [drawRows_succ, hp, memRead, ha, if_true, blitRow_setInputs]
        exact ih ..
      · simp only [drawRows_succ, hp, memRead, ha, if_true, if_false, drawInputs]
    · simp only [drawRows_succ, hp, if_false]
      exact ih ..

/-! ### The instructions -/

theorem execRet_setInputs (s : State) (l : List Input) :
    execRet (s.setInputs l) = mapNext (·.setInputs l) (execRet s) := by
  by_cases h : s.sp.val = 0
  · simp only [execRet, pop_eq_none (s := s.setInputs l) h, pop_eq_none h]
    rfl
  · simp only [execRet, pop_eq_some (s := s.setInputs l) h, pop_eq_some h]
    rfl

theorem execCall_setInputs (nnn : Addr12) (s : State) (l : List Input) :
    execCall nnn (s.setInputs l) = mapNext (·.setInputs l) (execCall nnn s) := by
  by_cases h : s.sp.val < 16
  · simp only [execCall, push_eq_some (s := s.setInputs l) h, push_eq_some h]
    rfl
  · simp only [execCall, push_eq_none (s := s.setInputs l) h, push_eq_none h]
    rfl

@[simp] theorem startColumn_setInputs (x : Reg) (s : State) (l : List Input) :
    startColumn x (s.setInputs l) = startColumn x s := rfl

@[simp] theorem startRow_setInputs (y : Reg) (s : State) (l : List Input) :
    startRow y (s.setInputs l) = startRow y s := rfl

@[simp] theorem effBase_setInputs (s : State) (l : List Input) : effBase (s.setInputs l) = effBase s := rfl

theorem execDrw_setInputs (x y : Reg) (n : Nibble) (s : State) (l : List Input) :
    execDrw x y n (s.setInputs l) = mapNext (·.setInputs l) (execDrw x y n s) := by
  simp only [execDrw, drawRows_setInputs, startColumn_setInputs, startRow_setInputs, effBase_setInputs]
  rcases drawRows (startColumn x s / 8) (startColumn x s % 8) (startRow y s) (effBase s) n.toNat 0 false s with t | t
  · rfl
  · rfl

/-- The "read by" column of R8 for one instruction: where the records agree on the random byte for `Cxnn` and on the keys
for `Ex9E` and `ExA1`, the meaning commutes with their replacement. -/
theorem exec_setInputs (i : Instr) (s : State) (l : List Input)
    (hrnd : ∀ x nn, i = .rnd x nn → (nextInput (s.setInputs l)).rnd = (nextInput s).rnd)
    (hkeys : ∀ x, i = .skp x ∨ i = .sknp x → (nextInput (s.setInputs l)).keys = (nextInput s).keys) :
    exec i (s.setInputs l) = mapNext (·.setInputs l) (exec i s) := by
  cases i with
  | rnd x nn =>
    simp only [exec, execRnd, hrnd x nn rfl]
    rfl
  | skp x =>
    simp only [exec, execSkp, hkeys x (.inl rfl), skipIf_setInputs]
    rfl
  | sknp x =>
    simp only [exec, execSknp, hkeys x (.inr rfl), skipIf_setInputs]
    rfl
  | seImm x nn => exact congrArg Host.Outcome.next (skipIf_setInputs ..)
  | sneImm x nn => exact congrArg Host.Outcome.next (skipIf_setInputs ..)
  | seReg x y => exact congrArg Host.Outcome.next (skipIf_setInputs ..)
  | sneReg x y => exact congrArg Host.Outcome.next (skipIf_setInputs ..)
  | ret => exact execRet_setInputs s l
  | call nnn => exact execCall_setInputs nnn s l
  | ldStVx x => exact congrArg Host.Outcome.next (audioOf_setInputs s.st (s.reg x) { s with st := s.reg x } l)
  | cls =>
    simp only [exec, execCls_eq]
    rfl
  | drw x y n => exact execDrw_setInputs x y n s l
  | ldBVx x => exact (congrArg _ (storeRun_setInputs ..)).trans (endAccess_accessInputs ..)
  | ldMemVx x => exact (congrArg _ (storeRun_setInputs ..)).trans (endAccess_accessInputs ..)
  | ldVxMem x => exact (congrArg _ (loadRun_setInputs ..)).trans (endAccess_accessInputs ..)
  | _ => rfl

/-- The whole of an executed step: the record used up, nothing tells the two apart. -/
theorem endStep_exec_setInputs {i : Instr} {inp inp' : Input} (s : State) (rest : List Input)
    (hrnd : ∀ x nn, i = .rnd x nn → inp.rnd = inp'.rnd)
    (hkeys : ∀ x, i = .skp x ∨ i = .sknp x → inp.keys = inp'.keys) :
    endStep (exec i (s.setInputs (inp :: rest))) = endStep (exec i (s.setInputs (inp' :: rest))) := by
  have own := exec_setInputs i (s.setInputs (inp :: rest)) (inp :: rest) (fun _ _ _ => rfl) (fun _ _ => rfl)
  have other := exec_setInputs i (s.setInputs (inp :: rest)) (inp' :: rest)
    (fun x nn h => (hrnd x nn h).symm) (fun x h => (hkeys x h).symm)
  calc endStep (exec i (s.setInputs (inp :: rest)))
      = mapNext (·.setInputs rest) (exec i (s.setInputs (inp :: rest))) :=
        (congrArg endStep own).trans (endStep_mapNext_setInputs_cons ..)
    _ = endStep (exec i (s.setInputs (inp' :: rest))) :=
        ((congrArg endStep other).trans (endStep_mapNext_setInputs_cons ..)).symm

/-! ### The step, case by case -/

theorem step_of_waitKey {s : State} (h : s.mode = .waitKey) :
    step s = .next (popInput (wakeUp (nextInput s).keyEvent (timerEval (nextInput s).k s))) := by
  simp only [step, stepByMode, h, waitStep]

theorem step_of_fetch_outOfBounds {s : State} (h : s.mode = .run) (hpc : 0xFFE < s.pc.toNat) :
    step s = .next (popInput (raise .outOfBounds s.pc none s)) := by
  simp only [step, stepByMode, h, runCycle, fetch_eq_none hpc]

theorem step_of_unknownOpcode {s : State} (h : s.mode = .run) (hpc : s.pc.toNat ≤ 0xFFE)
    (hd : decodeWord (wordAtPc s) = .unknownOpcode) :
    step s = .next (popInput (raise .unknownOpcode s.pc (some (wordAtPc s)) (beforeDispatch s))) := by
  unfold wordAtPc at *
  simp only [step, stepByMode, h, runCycle, fetch_eq_some hpc, dispatch, decode, hd, endStep, opcodeIn]

theorem step_of_dispatches {s : State} {i : Instr} (h : Dispatches s i) :
    step s = endStep (exec i (beforeDispatch s)) := by
  obtain ⟨hmode, hpc, hd⟩ := h
  unfold wordAtPc at hd
  simp only [step, stepByMode, hmode, runCycle, fetch_eq_some hpc, dispatch, decode, hd]

theorem beforeDispatch_setInputs_cons (s : State) (inp : Input) (rest : List Input) :
    beforeDispatch (s.setInputs (inp :: rest)) = (timerEval inp.k (advance s)).setInputs (inp :: rest) :=
  timerEval_setInputs inp.k (advance s) (inp :: rest)

/-- Settles O56, by cases on what the step does: each case but the dispatch reads at most `in.k` and, in `WAIT_KEY`, the key
event; the dispatch is `endStep_exec_setInputs`. -/
theorem inputsReachTheCoreOnlyWhereRead : Obligations.InputsReachTheCoreOnlyWhereRead := by
  intro s inp inp' rest hk hrnd hkeys hevent hhalt
  change step (s.setInputs (inp :: rest)) = step (s.setInputs (inp' :: rest))
  rcases hmode : s.mode with _ | _ | _
  case halt => exact absurd hmode hhalt
  case waitKey =>
    have wait (j : Input) : step (s.setInputs (j :: rest)) =
        .next ((wakeUp j.keyEvent (timerEval j.k s)).setInputs rest) := by
      rw [step_of_waitKey (s := s.setInputs (j :: rest)) hmode, timerEval_setInputs, wakeUp_setInputs]
      rfl
    rw [wait inp, wait inp', hk, hevent hmode]
  case run =>
    by_cases hpc : s.pc.toNat ≤ 0xFFE
    · rcases hd : decodeWord (wordAtPc s) with i | _
      case instr =>
        have dispatched (j : Input) : Dispatches (s.setInputs (j :: rest)) i := ⟨hmode, hpc, hd⟩
        rw [step_of_dispatches (dispatched inp), step_of_dispatches (dispatched inp'), beforeDispatch_setInputs_cons,
          beforeDispatch_setInputs_cons, hk]
        refine endStep_exec_setInputs _ rest (fun x nn hi => ?_) (fun x hi => ?_)
        · subst hi
          exact hrnd x nn (dispatched inp)
        · rcases hi with rfl | rfl
          · exact hkeys x (.inl (dispatched inp))
          · exact hkeys x (.inr (dispatched inp))
      case unknownOpcode =>
        have unknown (j : Input) : step (s.setInputs (j :: rest)) =
            .next ((raise .unknownOpcode s.pc (some (wordAtPc s)) (timerEval j.k (advance s))).setInputs rest) := by
          rw [step_of_unknownOpcode (s := s.setInputs (j :: rest)) hmode hpc hd, beforeDispatch_setInputs_cons]
          rfl
        rw [unknown inp, unknown inp', hk]
    · have outOfBounds (j : Input) : step (s.setInputs (j :: rest)) =
          .next ((raise .outOfBounds s.pc none s).setInputs rest) :=
        step_of_fetch_outOfBounds (s := s.setInputs (j :: rest)) hmode (Nat.lt_of_not_le hpc)
      rw [outOfBounds inp, outOfBounds inp']

end Sys2Proof.Machine
end

section
/-! SUPPORT. What an instruction can do, said once for all of them: the writes of R24's access summary, one constructor
per kind of write, and the fault some forms end in on top of the writes already made (R158). A fact about every
instruction is an induction over these constructors. -/

namespace Sys2Proof.Machine

open Sys2Proof Sys2Proof.Claims

/-- The V column of R24: `r` is among the registers that the instruction lists as written. -/
def WritesReg (i : Instr) (r : Reg) : Prop :=
  (∃ x nn, (i = .ldImm x nn ∨ i = .addImm x nn ∨ i = .rnd x nn) ∧ r = x) ∨
  (∃ x y, (i = .ldReg x y ∨ i = .orReg x y ∨ i = .andReg x y ∨ i = .xorReg x y) ∧ r = x) ∨
  (∃ x y, (i = .addReg x y ∨ i = .sub x y ∨ i = .subn x y ∨ i = .shr x y ∨ i = .shl x y) ∧ (r = x ∨ r = Reg.vf)) ∨
  (∃ x y n, i = .drw x y n ∧ r = Reg.vf) ∨
  (∃ x, i = .ldVxDt x ∧ r = x) ∨ (∃ x, i = .ldVxMem x ∧ r.toNat ≤ x.toNat)

/-- The six skip instructions (R89 to R92, R144, R145). -/
def Skips (i : Instr) : Prop :=
  (∃ x nn, i = .seImm x nn ∨ i = .sneImm x nn) ∨ (∃ x y, i = .seReg x y ∨ i = .sneReg x y) ∨
  ∃ x, i = .skp x ∨ i = .sknp x

/-- `Effect s i t`: executing `i` in `s` can end in `t`. -/
inductive Effect (s : State) : Instr → State → Prop
  /-- Nothing is written: what a form has done that faults at once. -/
  | nothing (i : Instr) : Effect s i s
  /-- The fault of an instruction, whatever it wrote before kept (R158). -/
  | fault {i : Instr} {t : State} (k : Fault) (h : Effect s i t) : Effect s i (raiseBy i k t)
  /-- The register file alone, in registers listed as written. -/
  | regs {i : Instr} (w : Vector Byte 16)
      (hw : ∀ r, State.reg { s with v := w } r ≠ s.reg r → WritesReg i r) : Effect s i { s with v := w }
  /-- Memory alone, the canonical form kept. -/
  | store {i : Instr} (m : Memory) (hm : Memory.wf s.mem = true → Memory.wf m = true) : Effect s i { s with mem := m }
  /-- Memory, and at the end `VF` and the trace. -/
  | draw (x y : Reg) (n : Nibble) (hit : Bool) (m : Memory) (hm : Memory.wf s.mem = true → Memory.wf m = true) :
      Effect s (.drw x y n) (endDraw hit { s with mem := m })
  | ret (h : s.sp.val ≠ 0) : Effect s .ret { s with
      pc := s.stkAt (s.sp.val - 1) (by have := s.sp.isLt; omega)
      sp := ⟨s.sp.val - 1, by have := s.sp.isLt; omega⟩ }
  | call (nnn : Addr12) (h : s.sp.val < 16) : Effect s (.call nnn) { s with
      pc := addrOf nnn
      stk := s.stk.set s.sp.val s.pc h
      sp := ⟨s.sp.val + 1, Nat.succ_lt_succ h⟩ }
  | jp (nnn : Addr12) : Effect s (.jp nnn) (s.setPc (addrOf nnn))
  | jpV0 (nnn : Addr12) : Effect s (.jpV0 nnn) (s.setPc (indexedTarget nnn s))
  | skip {i : Instr} (c : Bool) (hi : Skips i) : Effect s i (skipIf c s)
  | ldI (nnn : Addr12) : Effect s (.ldI nnn) (s.setI (addrOf nnn))
  | addIVx (x : Reg) : Effect s (.addIVx x) (s.setI (indexSum s.i (s.reg x)))
  | ldFVx (x : Reg) : Effect s (.ldFVx x) (s.setI (glyphAddr s.cfg.fontBase (s.reg x)))
  | ldDtVx (x : Reg) : Effect s (.ldDtVx x) { s with dt := s.reg x }
  | ldStVx (x : Reg) : Effect s (.ldStVx x) (audioOf s.st (s.reg x) { s with st := s.reg x })
  | ldVxK (x : Reg) : Effect s (.ldVxK x) { s with wx := x, mode := .waitKey }

/-! ### Register writes -/

/-- The register that a write changed is the one written. -/
theorem eq_of_reg_setReg_ne {s : State} {x r : Reg} {b : Byte} (h : (s.setReg x b).reg r ≠ s.reg r) : r = x := by
  by_contra hr
  exact h (by rw [State.reg_setReg, if_neg hr])

/-- Two writes change no third register, in either order (R100(b)). -/
theorem eq_or_eq_of_reg_setReg_setReg_ne {s : State} {x y r : Reg} {a b : Byte}
    (h : ((s.setReg x a).setReg y b).reg r ≠ s.reg r) : r = x ∨ r = y := by
  by_contra hr
  obtain ⟨hx, hy⟩ := not_or.mp hr
  exact h (by rw [State.reg_setReg, if_neg hy, State.reg_setReg, if_neg hx])

theorem Effect.setReg {s : State} {i : Instr} {x : Reg} (b : Byte) (hi : WritesReg i x) :
    Effect s i (s.setReg x b) :=
  .regs _ fun _ hr => eq_of_reg_setReg_ne hr ▸ hi

theorem Effect.resultThenFlag {s : State} {i : Instr} {x : Reg} (a : Byte) (f : Bool) (hx : WritesReg i x)
    (hf : WritesReg i Reg.vf) : Effect s i (resultThenFlag x a f s) :=
  .regs _ fun _ hr => (eq_or_eq_of_reg_setReg_setReg_ne hr).elim (· ▸ hx) (· ▸ hf)

theorem Effect.flagThenResult {s : State} {i : Instr} {x : Reg} (a : Byte) (f : Bool) (hx : WritesReg i x)
    (hf : WritesReg i Reg.vf) : Effect s i (flagThenResult x a f s) :=
  .regs _ fun _ hr => (eq_or_eq_of_reg_setReg_setReg_ne hr).elim (· ▸ hf) (· ▸ hx)

/-! ### Every instruction -/

/-- A run of stores, completed or faulted. -/
theorem endAccess_storeRun_effect (i : Instr) (xs : List Byte) (a : Nat) (s : State) :
    ∃ t, endAccess i (storeRun xs a s) = .next t ∧ Effect s i t := by
  obtain ⟨m, h | h, hm, -⟩ := endAccess_storeRun i xs a s
  · exact ⟨_, h, .store m hm⟩
  · exact ⟨_, h, .fault _ (.store m hm)⟩

theorem execLdVxMem_effect (x : Reg) (s : State) : ∃ t, execLdVxMem x s = .next t ∧ Effect s (.ldVxMem x) t := by
  obtain ⟨w, hend, hother⟩ := endAccess_loadRun (.ldVxMem x) (regsTo x) (effBase s) s
  have listed (r : Reg) (hr : State.reg { s with v := w } r ≠ s.reg r) : WritesReg (.ldVxMem x) r := by
    have : r ∈ regsTo x := by
      by_contra hn
      exact hr (hother r hn)
    simp [WritesReg, (mem_regsTo x r).mp this]
  rcases hend with h | h
  · exact ⟨_, h, .regs w listed⟩
  · exact ⟨_, h, .fault _ (.regs w listed)⟩

/-- Every instruction's next state is one of its effects. -/
theorem exec_effect (i : Instr) (s : State) : ∃ t, exec i s = .next t ∧ Effect s i t := by
  cases i with
  | cls => exact ⟨_, execCls_eq s, .store _ cleared_wf⟩
  | ret =>
    rcases execRet_cases s with ⟨hsp, h⟩ | ⟨-, h⟩
    · exact ⟨_, h, .ret hsp⟩
    · exact ⟨_, h, .fault _ (.nothing _)⟩
  | sys nnn => exact ⟨_, rfl, .fault _ (.nothing _)⟩
  | jp nnn => exact ⟨_, rfl, .jp nnn⟩
  | call nnn =>
    rcases execCall_cases nnn s with ⟨hsp, h⟩ | ⟨-, h⟩
    · exact ⟨_, h, .call nnn hsp⟩
    · exact ⟨_, h, .fault _ (.nothing _)⟩
  | seImm x nn => exact ⟨_, rfl, .skip _ (by simp [Skips])⟩
  | sneImm x nn => exact ⟨_, rfl, .skip _ (by simp [Skips])⟩
  | seReg x y => exact ⟨_, rfl, .skip _ (by simp [Skips])⟩
  | sneReg x y => exact ⟨_, rfl, .skip _ (by simp [Skips])⟩
  | skp x => exact ⟨_, rfl, .skip _ (by simp [Skips])⟩
  | sknp x => exact ⟨_, rfl, .skip _ (by simp [Skips])⟩
  | ldImm x nn => exact ⟨_, rfl, .setReg _ (by simp [WritesReg])⟩
  | addImm x nn => exact ⟨_, rfl, .setReg _ (by simp [WritesReg])⟩
  | ldReg x y => exact ⟨_, rfl, .setReg _ (by simp [WritesReg])⟩
  | orReg x y => exact ⟨_, rfl, .setReg _ (by simp [WritesReg])⟩
  | andReg x y => exact ⟨_, rfl, .setReg _ (by simp [WritesReg])⟩
  | xorReg x y => exact ⟨_, rfl, .setReg _ (by simp [WritesReg])⟩
  | rnd x nn => exact ⟨_, rfl, .setReg _ (by simp [WritesReg])⟩
  | ldVxDt x => exact ⟨_, rfl, .setReg _ (by simp [WritesReg])⟩
  | addReg x y => exact ⟨_, rfl, .resultThenFlag _ _ (by simp [WritesReg]) (by simp [WritesReg])⟩
  | sub x y => exact ⟨_, rfl, .resultThenFlag _ _ (by simp [WritesReg]) (by simp [WritesReg])⟩
  | subn x y => exact ⟨_, rfl, .resultThenFlag _ _ (by simp [WritesReg]) (by simp [WritesReg])⟩
  | shr x y => exact ⟨_, rfl, .flagThenResult _ _ (by simp [WritesReg]) (by simp [WritesReg])⟩
  | shl x y => exact ⟨_, rfl, .flagThenResult _ _ (by simp [WritesReg]) (by simp [WritesReg])⟩
  | ldI nnn => exact ⟨_, rfl, .ldI nnn⟩
  | addIVx x => exact ⟨_, rfl, .addIVx x⟩
  | ldFVx x => exact ⟨_, rfl, .ldFVx x⟩
  | jpV0 nnn => exact ⟨_, rfl, .jpV0 nnn⟩
  | drw x y n =>
    obtain ⟨m, ⟨hit, h⟩ | h, hm, -⟩ := execDrw_cases x y n s
    · exact ⟨_, h, .draw x y n hit m hm⟩
    · exact ⟨_, h, .fault _ (.store m hm)⟩
  | ldBVx x => exact endAccess_storeRun_effect ..
  | ldMemVx x => exact endAccess_storeRun_effect ..
  | ldVxMem x => exact execLdVxMem_effect x s
  | ldDtVx x => exact ⟨_, rfl, .ldDtVx x⟩
  | ldStVx x => exact ⟨_, rfl, .ldStVx x⟩
  | ldVxK x => exact ⟨_, rfl, .ldVxK x⟩

/-- The inversion lemma of `exec`. -/
theorem effect_of_exec {i : Instr} {s t : State} (h : exec i s = .next t) : Effect s i t := by
  obtain ⟨u, hu, heffect⟩ := exec_effect i s
  obtain rfl : t = u := Host.Outcome.next.inj (h.symm.trans hu)
  exact heffect

end Sys2Proof.Machine
end

section
/-! The family 10_state.md: the reset values (R23), the transitions of `MODE` (R17), the access summary (R24) and the
invariants of R25. -/

namespace Sys2Proof.Machine

open Sys2Proof Sys2Proof.Claims

/-! ### Updates as plain ones, and what they leave -/

/-- A write to the sound timer signals in the trace alone (R143). -/
theorem audioOf_eq (old new : Byte) (s : State) :
    audioOf old new s = { s with out := (audioOf old new s).out } := by
  unfold audioOf
  split
  · rfl
  · split <;> rfl

@[simp] theorem popInput_mode (s : State) : (popInput s).mode = s.mode := by rw [popInput_eq]

@[simp] theorem timerEval_mode (k : Nat) (s : State) : (timerEval k s).mode = s.mode := by rw [timerEval_eq]

@[simp] theorem timerEval_pc (k : Nat) (s : State) : (timerEval k s).pc = s.pc := by rw [timerEval_eq]

@[simp] theorem beforeDispatch_mode (s : State) : (beforeDispatch s).mode = s.mode := timerEval_mode ..

@[simp] theorem beforeDispatch_pc (s : State) : (beforeDispatch s).pc = s.pc + 2 := timerEval_pc ..

theorem wakeUp_mode (event : Option Key) (s : State) :
    (wakeUp event s).mode = if event = none then s.mode else .run := by
  cases event <;> rfl

/-- `step` answers one state. -/
theorem eq_of_step {s t u : State} (ht : step s = .next t) (hu : stepByMode s = .next u) : t = u :=
  Host.Outcome.next.inj (ht.symm.trans hu)

/-! ### Reset -/

/-- Settles O6: each register of `resetWith` is the entry of a replicated vector, Memory lists no byte, and the other
fields are written out. -/
theorem resetValues : Obligations.ResetValues := by
  refine ⟨rfl, fun c => ⟨fun r => ?_, rfl, rfl, rfl, rfl, rfl, rfl, fun a => rfl, rfl, rfl⟩⟩
  simp [State.reg, State.resetWith]

/-! ### The access summary -/

/-- Settles O53, by induction over the effects of the instruction: only `regs` and the `VF` of `draw` reach the register
file. -/
theorem registersWrittenOnlyAsListed : Obligations.RegistersWrittenOnlyAsListed := by
  intro i s t r h
  replace h := effect_of_exec h
  change t.reg r ≠ s.reg r → WritesReg i r
  induction h with
  | fault k _ ih => exact ih
  | regs w hw => exact hw r
  | draw x y n hit m =>
    intro hr
    obtain rfl : r = Reg.vf := eq_of_reg_setReg_ne (s := { s with mem := m }) hr
    simp [WritesReg]
  | ldStVx x =>
    rw [audioOf_eq]
    exact absurd rfl
  | skip c =>
    rw [skipIf_eq]
    exact absurd rfl
  | _ => exact absurd rfl

/-- Settles O54, by induction over the effects of the instruction: each column of R24 has its own constructors. -/
theorem specialRegistersWrittenOnlyAsListed : Obligations.SpecialRegistersWrittenOnlyAsListed := by
  intro i s t h
  replace h := effect_of_exec h
  induction h with
  | nothing i => simp
  | fault k _ ih => exact ih
  | regs w hw => simp
  | store m hm => simp
  | draw x y n hit m hm => simp [endDraw]
  | ret hsp => simp
  | call nnn hsp => simp
  | jp nnn => simp
  | jpV0 nnn => simp
  | skip c hi =>
    rw [skipIf_eq]
    exact ⟨absurd rfl, absurd rfl, absurd rfl, absurd rfl, absurd rfl, absurd rfl, fun _ => .inr (.inr hi)⟩
  | ldI nnn => simp
  | addIVx x => simp
  | ldFVx x => simp
  | ldDtVx x => simp
  | ldStVx x =>
    rw [audioOf_eq]
    simp
  | ldVxK x => simp

/-! ### The transitions of `MODE` -/

/-- An instruction enters the wait only if it is `Fx0A` (R17). -/
theorem exec_mode_waitKey {i : Instr} {s t : State} (h : exec i s = .next t) (hs : s.mode ≠ .waitKey)
    (ht : t.mode = .waitKey) : ∃ x, i = .ldVxK x := by
  replace h := effect_of_exec h
  induction h with
  | fault k _ ih => exact absurd ht (by simp [raiseBy_eq])
  | ldVxK x => exact ⟨x, rfl⟩
  | skip c hi =>
    rw [skipIf_eq] at ht
    exact absurd ht hs
  | ldStVx x =>
    rw [audioOf_eq] at ht
    exact absurd ht hs
  | _ => exact absurd ht hs

/-- Settles O52, by cases on what the step does (R17): in RUN a fault ends in HALT and a dispatched instruction is
`exec_mode_waitKey`; the wait's end is `wakeUp_mode`. -/
theorem modeTransitions : Obligations.ModeTransitions := by
  intro s t ht
  rcases stepByMode_cases s with ⟨hmode, h⟩ | ⟨hmode, h⟩ | ⟨hmode, -, h⟩ | ⟨hmode, -, -, h⟩ |
    ⟨i, u, hmode, hpc, hd, hexec, h⟩
  all_goals
    obtain rfl := eq_of_step ht h
    simp only [hmode, reduceCtorEq, false_implies, true_implies, true_and, and_true, popInput_mode]
  · cases hev : (nextInput s).keyEvent <;> simp [wakeUp_mode, hmode]
  · simp
  · simp
  · intro hu
    obtain ⟨x, rfl⟩ := exec_mode_waitKey hexec (by simp [hmode]) hu
    exact ⟨x, hmode, hpc, hd⟩

/-! ### The invariants of R25 -/

theorem State.Inv.popInput {s : State} (h : s.Inv) : (popInput s).Inv := by
  rw [popInput_eq]
  exact ⟨h.mem, h.cfg, h.index, h.pc, h.stack⟩

theorem State.Inv.timerEval {s : State} (h : s.Inv) (k : Nat) : (timerEval k s).Inv := by
  rw [timerEval_eq]
  exact ⟨h.mem, h.cfg, h.index, h.pc, h.stack⟩

theorem State.Inv.wakeUp {s : State} (h : s.Inv) (event : Option Key) : (wakeUp event s).Inv := by
  cases event with
  | none => exact h
  | some k => exact ⟨h.mem, h.cfg, h.index, h.pc, h.stack⟩

theorem State.Inv.raise {s : State} (h : s.Inv) (k : Fault) (a : Word) (op : Option Word) : (raise k a op s).Inv :=
  ⟨h.mem, h.cfg, h.index, h.pc, h.stack⟩

theorem State.Inv.setPc {s : State} (h : s.Inv) {w : Word} (hw : w.toNat ≤ 0x10FE) : (s.setPc w).Inv :=
  ⟨h.mem, h.cfg, h.index, hw, h.stack⟩

theorem State.Inv.setI {s : State} (h : s.Inv) {w : Word} (hw : w.toNat ≤ max 0xFFF (s.cfg.fontBase.toNat + 1275)) :
    (s.setI w).Inv :=
  ⟨h.mem, h.cfg, hw, h.pc, h.stack⟩

/-- A fetch inside Memory advances `PC` to at most 0x1000 (R73). -/
theorem toNat_add_two_le {w : Word} (h : w.toNat ≤ 0xFFE) : (w + 2).toNat ≤ 0x1000 := by
  bv_omega

theorem addrOf_toNat_le (nnn : Addr12) : (addrOf nnn).toNat ≤ 0xFFF := by
  have := nnn.isLt
  simp only [addrOf, BitVec.toNat_setWidth]
  omega

theorem zext16_toNat_le (b : Byte) : (zext16 b).toNat ≤ 0xFF := by
  have := b.isLt
  simp only [zext16, BitVec.toNat_setWidth]
  omega

/-- The highest target of `Bnnn` is 0xFFF + 0xFF (R13). -/
theorem indexedTarget_toNat_le (nnn : Addr12) (s : State) : (indexedTarget nnn s).toNat ≤ 0x10FE := by
  have hn := addrOf_toNat_le nnn
  have hv := zext16_toNat_le (s.reg Reg.v0)
  unfold indexedTarget
  bv_omega

theorem indexSum_toNat_le (w : Word) (a : Byte) : (indexSum w a).toNat ≤ 0xFFF := by
  have := Nat.mod_lt (w.toNat + a.toNat) (show Config.memSize > 0 by decide)
  simp only [indexSum, BitVec.toNat_ofNat, Config.memSize] at this ⊢
  omega

/-- The highest address of `Fx29` is `FONT_BASE` + 255 * 5 (R12). -/
theorem glyphAddr_toNat_le (fontBase : Word) (a : Byte) : (glyphAddr fontBase a).toNat ≤ fontBase.toNat + 1275 := by
  have hindex := zext16_toNat_le a
  calc (glyphAddr fontBase a).toNat
      ≤ fontBase.toNat + (zext16 a * BitVec.ofNat 16 Config.glyphBytes).toNat := by
        rw [glyphAddr, BitVec.toNat_add]
        exact Nat.mod_le ..
    _ ≤ fontBase.toNat + (zext16 a).toNat * 5 := by
        rw [BitVec.toNat_mul]
        exact Nat.add_le_add_left (Nat.mod_le ..) _
    _ ≤ fontBase.toNat + 1275 := by omega

/-- A popped entry was in use, so it is an address after a call. -/
theorem State.Inv.ret {s : State} (h : s.Inv) (hsp : s.sp.val ≠ 0) : State.Inv { s with
    pc := s.stkAt (s.sp.val - 1) (by have := s.sp.isLt; omega)
    sp := ⟨s.sp.val - 1, by have := s.sp.isLt; omega⟩ } where
  mem := h.mem
  cfg := h.cfg
  index := h.index
  pc := (h.stack _ _ (by omega)).trans (by decide)
  stack j hj hlt := h.stack j hj (by simp only at hlt; omega)

/-- The entry that `2nnn` pushes is the `PC` at dispatch, the address after the call. -/
theorem State.Inv.call {s : State} (h : s.Inv) (hpc : s.pc.toNat ≤ 0x1000) (nnn : Addr12) (hsp : s.sp.val < 16) :
    State.Inv { s with
      pc := addrOf nnn
      stk := s.stk.set s.sp.val s.pc hsp
      sp := ⟨s.sp.val + 1, Nat.succ_lt_succ hsp⟩ } where
  mem := h.mem
  cfg := h.cfg
  index := h.index
  pc := (addrOf_toNat_le nnn).trans (by decide)
  stack j hj hlt := by
    simp only [State.stkAt, Vector.getElem_set]
    split
    · exact hpc
    · exact h.stack j hj (by simp only at hlt; omega)

/-- Every instruction keeps the invariants, dispatched with a `PC` that a fetch inside Memory leaves. -/
theorem exec_keeps_inv {i : Instr} {s t : State} (h : s.Inv) (hpc : s.pc.toNat ≤ 0x1000) (hexec : exec i s = .next t) :
    t.Inv := by
  replace hexec := effect_of_exec hexec
  induction hexec with
  | nothing i => exact h
  | fault k _ ih => exact ih.raise k _ _
  | regs w hw => exact ⟨h.mem, h.cfg, h.index, h.pc, h.stack⟩
  | store m hm => exact ⟨hm h.mem, h.cfg, h.index, h.pc, h.stack⟩
  | draw x y n hit m hm => exact ⟨hm h.mem, h.cfg, h.index, h.pc, h.stack⟩
  | ret hsp => exact h.ret hsp
  | call nnn hsp => exact h.call hpc nnn hsp
  | jp nnn => exact h.setPc ((addrOf_toNat_le nnn).trans (by decide))
  | jpV0 nnn => exact h.setPc (indexedTarget_toNat_le nnn s)
  | skip c hi =>
    cases c with
    | true => exact h.setPc (by bv_omega)
    | false => exact h
  | ldI nnn => exact h.setI (le_max_of_le_left (addrOf_toNat_le nnn))
  | addIVx x => exact h.setI (le_max_of_le_left (indexSum_toNat_le s.i _))
  | ldFVx x => exact h.setI (le_max_of_le_right (glyphAddr_toNat_le _ _))
  | ldDtVx x => exact ⟨h.mem, h.cfg, h.index, h.pc, h.stack⟩
  | ldStVx x =>
    rw [audioOf_eq]
    exact ⟨h.mem, h.cfg, h.index, h.pc, h.stack⟩
  | ldVxK x => exact ⟨h.mem, h.cfg, h.index, h.pc, h.stack⟩

/-- The state at dispatch keeps the invariants. -/
theorem State.Inv.beforeDispatch {s : State} (h : s.Inv) (hpc : s.pc.toNat ≤ 0xFFE) : (beforeDispatch s).Inv :=
  (h.setPc ((toNat_add_two_le hpc).trans (by decide))).timerEval _

/-- Settles O44, by cases on what the step does: outside the dispatch nothing the invariants speak of is written but `PC`,
and the dispatch is `exec_keeps_inv`. -/
theorem stepKeepsInvariants : Obligations.StepKeepsInvariants := by
  intro s t hinv ht
  rcases stepByMode_cases s with ⟨-, h⟩ | ⟨-, h⟩ | ⟨-, -, h⟩ | ⟨-, hpc, -, h⟩ | ⟨i, u, -, hpc, -, hexec, h⟩
  all_goals obtain rfl := eq_of_step ht h
  · exact hinv
  · exact ((hinv.timerEval _).wakeUp _).popInput
  · exact (hinv.raise ..).popInput
  · exact ((hinv.beforeDispatch hpc).raise ..).popInput
  · have hdispatch : (beforeDispatch s).pc.toNat ≤ 0x1000 := by
      rw [beforeDispatch_pc]
      exact toNat_add_two_le hpc
    exact (exec_keeps_inv (hinv.beforeDispatch hpc) hdispatch hexec).popInput

end Sys2Proof.Machine
end

section
/-! The family 20_memory.md: the instructions that write Memory, and the addresses they can write (R39, the Mem column of
R24). The three that store a run of bytes share one bound, that of the run. -/

namespace Sys2Proof.Machine

open Sys2Proof Sys2Proof.Claims

/-- The four instructions that R39 lists as writing Memory. -/
def WritesMemory : Instr → Bool
  | .cls | .drw _ _ _ | .ldBVx _ | .ldMemVx _ => true
  | _ => false

@[simp] theorem skipIf_mem (c : Bool) (s : State) : (skipIf c s).mem = s.mem := by rw [skipIf_eq, State.setPc_mem]

@[simp] theorem audioOf_mem (old new : Byte) (s : State) : (audioOf old new s).mem = s.mem := by rw [audioOf_eq]

/-- An outcome has one next state, so Memory after it is read off any form of that state. -/
theorem mem_eq_of_next {o : Host.Outcome State Fault Refusal} {t u : State} {m : Memory} (ht : o = .next t)
    (hu : o = .next u) (hm : u.mem = m) : t.mem = m := by
  rw [Host.Outcome.next.inj (ht.symm.trans hu), hm]

/-- Every instruction outside R39's list leaves Memory, in a fault too. -/
theorem exec_mem_of_not_writesMemory {i : Instr} {s t : State} (hi : WritesMemory i = false) (h : exec i s = .next t) :
    t.mem = s.mem := by
  cases i with
  | cls | drw | ldBVx | ldMemVx => cases hi
  | ret => rcases execRet_cases s with ⟨_, hu⟩ | ⟨_, hu⟩ <;> exact mem_eq_of_next h hu rfl
  | call nnn => rcases execCall_cases nnn s with ⟨_, hu⟩ | ⟨_, hu⟩ <;> exact mem_eq_of_next h hu rfl
  | ldVxMem x =>
    obtain ⟨w, hu | hu, -⟩ := endAccess_loadRun (.ldVxMem x) (regsTo x) (effBase s) s <;>
      exact mem_eq_of_next h hu rfl
  | seImm | sneImm | seReg | sneReg | skp | sknp => exact mem_eq_of_next h rfl (skipIf_mem ..)
  | ldStVx x => exact mem_eq_of_next h rfl (audioOf_mem ..)
  | _ => exact mem_eq_of_next h rfl rfl

/-- A byte that a storing instruction changed lies in its run of stores, and in Memory (R120). -/
theorem mem_storeRun_of_byteAt_ne {i : Instr} {xs : List Byte} {base a : Nat} {s t : State}
    (h : endAccess i (storeRun xs base s) = .next t) (hne : t.byteAt a ≠ s.byteAt a) :
    base ≤ a ∧ a < base + xs.length ∧ a < Config.memSize := by
  obtain ⟨m, hend, -, hread⟩ := endAccess_storeRun i xs base s
  have hm : t.mem = m := by
    rcases hend with hu | hu <;> exact mem_eq_of_next h hu rfl
  by_contra hout
  exact hne ((congrArg (Memory.read · a) hm).trans (hread a hout))

/-- A byte that `Dxyn` changed lies in the framebuffer (R130, R132). -/
theorem mem_framebuffer_of_execDrw_byteAt_ne {x y : Reg} {n : Nibble} {a : Nat} {s t : State}
    (h : execDrw x y n s = .next t) (hne : t.byteAt a ≠ s.byteAt a) : Config.fbBase ≤ a ∧ a < Config.memSize := by
  obtain ⟨m, hend, -, hread⟩ := execDrw_cases x y n s
  have hm : t.mem = m := by
    rcases hend with ⟨hit, hu⟩ | hu <;> exact mem_eq_of_next h hu rfl
  by_contra hout
  exact hne ((congrArg (Memory.read · a) hm).trans (hread a (by omega)))

/-- Settles O55, by cases on the instruction: `00E0`, `Fx33` and `Fx55` write inside their runs of 256, 3 and x + 1 stores,
`Dxyn` inside the framebuffer, and the others leave Memory. -/
theorem memoryWrittenOnlyAsListed : Obligations.MemoryWrittenOnlyAsListed := by
  intro i s t a h hne
  cases i with
  | cls =>
    change execCls s = .next t at h
    rw [execCls] at h
    obtain ⟨hlo, -, hmem⟩ := mem_storeRun_of_byteAt_ne h hne
    exact ⟨Nat.le_of_lt_succ hmem, .inl ⟨rfl, hlo⟩⟩
  | drw x y n =>
    obtain ⟨hlo, hmem⟩ := mem_framebuffer_of_execDrw_byteAt_ne h hne
    exact ⟨Nat.le_of_lt_succ hmem, .inr (.inl ⟨x, y, n, rfl, hlo⟩)⟩
  | ldBVx x =>
    obtain ⟨hlo, hhi, hmem⟩ := mem_storeRun_of_byteAt_ne h hne
    exact ⟨Nat.le_of_lt_succ hmem, .inr (.inr (.inl ⟨x, rfl, hlo, Nat.le_of_lt_succ hhi⟩))⟩
  | ldMemVx x =>
    obtain ⟨hlo, hhi, hmem⟩ := mem_storeRun_of_byteAt_ne h hne
    rw [List.length_map, regsTo_length] at hhi
    exact ⟨Nat.le_of_lt_succ hmem, .inr (.inr (.inr ⟨x, rfl, hlo, Nat.le_of_lt_succ hhi⟩))⟩
  | _ => exact absurd (State.byteAt_congr (exec_mem_of_not_writesMemory rfl h) a) hne

end Sys2Proof.Machine
end

section
/-! The family 30_encoding.md. Both directions of the round trip go by the layout of the word: the field laws read an
encoded word back, and a word is rebuilt from the fields that its prefix keys on (R51, R52). -/

namespace Sys2Proof

/-! ### The second levels of the opcode map, an outcome for every key (R56, R57) -/

theorem selectInstr_of_pfx_8 {f : Fields} (h : f.pfx = 0x8#4) : selectInstr f = decode8 f := by
  rw [selectInstr, h]
  rfl

theorem selectInstr_of_pfx_E {f : Fields} (h : f.pfx = 0xE#4) : selectInstr f = decodeE f := by
  rw [selectInstr, h]
  rfl

theorem selectInstr_of_pfx_F {f : Fields} (h : f.pfx = 0xF#4) : selectInstr f = decodeF f := by
  rw [selectInstr, h]
  rfl

/-- Settles O4: the prefix selects `decode8`, whose match on `n` is the table. -/
theorem prefixEightIsKeyedOnN : Obligations.PrefixEightIsKeyedOnN := by
  intro x y n
  obtain ⟨hpfx, hx, hy, hn⟩ := fieldsOf_xyn 0x8#4 x y n
  rw [decodeWord, selectInstr_of_pfx_8 hpfx, decode8, hx, hy, hn]
  split
  case h_10 =>
    repeat rw [if_neg]
    all_goals assumption
  all_goals rfl

/-- Settles O5: the prefix selects `decodeE` or `decodeF`, whose match on `nn` is the table. -/
theorem prefixesEAndFAreKeyedOnNN : Obligations.PrefixesEAndFAreKeyedOnNN := by
  intro x nn
  constructor
  · obtain ⟨hpfx, hx, hnn⟩ := fieldsOf_xnn 0xE#4 x nn
    rw [decodeWord, selectInstr_of_pfx_E hpfx, decodeE, hx, hnn]
    split
    case h_3 =>
      repeat rw [if_neg]
      all_goals assumption
    all_goals rfl
  · obtain ⟨hpfx, hx, hnn⟩ := fieldsOf_xnn 0xF#4 x nn
    rw [decodeWord, selectInstr_of_pfx_F hpfx, decodeF, hx, hnn]
    split
    case h_10 =>
      repeat rw [if_neg]
      all_goals assumption
    all_goals rfl

/-! ### Decoding an encoded word -/

theorem decodeWord_encodeWord {i : Instr} (h : i.wellFormed = true) : decodeWord (encodeWord i) = .instr i := by
  cases i with
  | cls => rfl
  | ret => rfl
  | sys nnn =>
    simp only [Instr.wellFormed, Bool.and_eq_true, decide_eq_true_eq] at h
    obtain ⟨hcls, hret⟩ := h
    simp only [encodeWord, decodeWord, selectInstr, fieldsOf_nnn, decode0, if_neg hcls, if_neg hret]
  | jp | call | ldI | jpV0 => simp only [encodeWord, decodeWord, selectInstr, fieldsOf_nnn]
  | seImm | sneImm | ldImm | addImm | rnd => simp only [encodeWord, decodeWord, selectInstr, fieldsOf_xnn]
  | seReg | sneReg => simp only [encodeWord, decodeWord, selectInstr, fieldsOf_xyn, whenZero, if_true]
  | drw => simp only [encodeWord, decodeWord, selectInstr, fieldsOf_xyn]
  | ldReg x y | orReg x y | andReg x y | xorReg x y | addReg x y | sub x y | shr x y | subn x y | shl x y =>
    exact prefixEightIsKeyedOnN x y _
  | skp x | sknp x => exact (prefixesEAndFAreKeyedOnNN x _).1
  | ldVxDt x | ldVxK x | ldDtVx x | ldStVx x | addIVx x | ldFVx x | ldBVx x | ldMemVx x | ldVxMem x =>
    exact (prefixesEAndFAreKeyedOnNN x _).2

/-- Settles O2: the two bytes are the word, which decodes by `decodeWord_encodeWord`. -/
theorem decodeOfEncodeIsTheInstruction : Obligations.DecodeOfEncodeIsTheInstruction := by
  intro i rest h
  simp only [encode, List.cons_append, List.nil_append, decode, opcodeOf_bytes, decodeWord_encodeWord h]

/-! ### Encoding a decoded instruction -/

/-- The instruction `i` is well formed and has the word `w`. -/
def Spells (i : Instr) (w : Word) : Prop := encodeWord i = w ∧ i.wellFormed = true

theorem spells_of_decode0 {f : Fields} {i : Instr} (h : decode0 f = .instr i) : Spells i (0x0#4 ++ f.nnn) := by
  unfold decode0 at h
  split_ifs at h with hcls hret
  all_goals cases h
  · exact ⟨by rw [hcls]; rfl, rfl⟩
  · exact ⟨by rw [hret]; rfl, rfl⟩
  · exact ⟨rfl, by simp [Instr.wellFormed, hcls, hret]⟩

theorem spells_of_decode8 {f : Fields} {i : Instr} (h : decode8 f = .instr i) :
    Spells i (0x8#4 ++ f.x ++ f.y ++ f.n) := by
  unfold decode8 at h
  split at h
  case h_10 => cases h
  all_goals
    next hn =>
      cases h
      exact ⟨by rw [hn]; rfl, rfl⟩

theorem spells_of_decodeE {f : Fields} {i : Instr} (h : decodeE f = .instr i) : Spells i (0xE#4 ++ f.x ++ f.nn) := by
  unfold decodeE at h
  split at h
  case h_3 => cases h
  all_goals
    next hnn =>
      cases h
      exact ⟨by rw [hnn]; rfl, rfl⟩

theorem spells_of_decodeF {f : Fields} {i : Instr} (h : decodeF f = .instr i) : Spells i (0xF#4 ++ f.x ++ f.nn) := by
  unfold decodeF at h
  split at h
  case h_10 => cases h
  all_goals
    next hnn =>
      cases h
      exact ⟨by rw [hnn]; rfl, rfl⟩

theorem eq_of_whenZero {n : Nibble} {i j : Instr} (h : whenZero n j = .instr i) : n = 0x0#4 ∧ j = i := by
  unfold whenZero at h
  split_ifs at h with hn
  exact ⟨hn, WordDecode.instr.inj h⟩

/-! The word rebuilt from its fields, the prefix known. -/

theorem word_of_pfx_nnn {w : Word} {p : Nibble} (h : (fieldsOf w).pfx = p) : p ++ (fieldsOf w).nnn = w :=
  h ▸ word_of_nnn w

theorem word_of_pfx_xnn {w : Word} {p : Nibble} (h : (fieldsOf w).pfx = p) :
    p ++ (fieldsOf w).x ++ (fieldsOf w).nn = w :=
  h ▸ word_of_xnn w

theorem word_of_pfx_xyn {w : Word} {p : Nibble} (h : (fieldsOf w).pfx = p) :
    p ++ (fieldsOf w).x ++ (fieldsOf w).y ++ (fieldsOf w).n = w :=
  h ▸ word_of_xyn w

/-- Settles O3, by cases on the prefix: the fields it keys on spell the word. -/
theorem encodeOfDecodeIsTheWord : Obligations.EncodeOfDecodeIsTheWord := by
  intro op i h
  change Spells i op
  unfold decodeWord selectInstr at h
  split at h
  -- prefixes 0, 8, E and F, which have a second level
  case h_1 hp => exact word_of_pfx_nnn hp ▸ spells_of_decode0 h
  case h_9 hp => exact word_of_pfx_xyn hp ▸ spells_of_decode8 h
  case h_15 hp => exact word_of_pfx_xnn hp ▸ spells_of_decodeE h
  case h_16 =>
    have hp : (fieldsOf op).pfx = 0xF#4 := by
      simp only [imp_false] at *
      bv_omega
    exact word_of_pfx_xnn hp ▸ spells_of_decodeF h
  -- 1nnn, 2nnn, Annn, Bnnn
  case h_2 hp | h_3 hp | h_11 hp | h_12 hp =>
    cases h
    exact ⟨word_of_pfx_nnn hp, rfl⟩
  -- 3xnn, 4xnn, 6xnn, 7xnn, Cxnn
  case h_4 hp | h_5 hp | h_7 hp | h_8 hp | h_13 hp =>
    cases h
    exact ⟨word_of_pfx_xnn hp, rfl⟩
  -- 5xy0, 9xy0
  case h_6 hp | h_10 hp =>
    obtain ⟨hn, rfl⟩ := eq_of_whenZero h
    have hword := word_of_pfx_xyn hp
    rw [hn] at hword
    exact ⟨hword, rfl⟩
  -- Dxyn
  case h_14 hp =>
    cases h
    exact ⟨word_of_pfx_xyn hp, rfl⟩

end Sys2Proof
end

section
/-! The family 40_cycle.md: what one step does (R70 to R79) and appends to the trace (R81). The cases of `stepByMode_cases`
give each statement its shape; what a dispatched instruction leaves of `PC`, the parameters and the trace is said first. -/

namespace Sys2Proof.Machine

open Sys2Proof Sys2Proof.Claims

/-! ### What the parts of a step around the dispatch leave -/

@[simp] theorem popInput_pc (s : State) : (popInput s).pc = s.pc := by rw [popInput_eq]

@[simp] theorem popInput_cfg (s : State) : (popInput s).cfg = s.cfg := by rw [popInput_eq]

@[simp] theorem popInput_out (s : State) : (popInput s).out = s.out := by rw [popInput_eq]

@[simp] theorem timerEval_cfg (k : Nat) (s : State) : (timerEval k s).cfg = s.cfg := by rw [timerEval_eq]

@[simp] theorem timerEval_wx (k : Nat) (s : State) : (timerEval k s).wx = s.wx := by rw [timerEval_eq]

@[simp] theorem State.reg_timerEval (k : Nat) (s : State) (r : Reg) : (timerEval k s).reg r = s.reg r :=
  State.reg_congr (by rw [timerEval_eq]) r

@[simp] theorem beforeDispatch_cfg (s : State) : (beforeDispatch s).cfg = s.cfg := timerEval_cfg ..

@[simp] theorem wakeUp_cfg (event : Option Key) (s : State) : (wakeUp event s).cfg = s.cfg := by
  cases event <;> rfl

@[simp] theorem wakeUp_out (event : Option Key) (s : State) : (wakeUp event s).out = s.out := by
  cases event <;> rfl

/-- The wake-up writes the waiting register alone (R147). -/
theorem State.reg_wakeUp_some (k : Key) (s : State) (r : Reg) :
    (wakeUp (some k) s).reg r = if r = s.wx then keyByte k else s.reg r :=
  State.reg_setReg s s.wx r (keyByte k)

/-- The state the statements name `atDispatch` is the cycle's own. -/
theorem atDispatch_eq (s : State) : atDispatch s = beforeDispatch s := rfl

/-- The advance of a `PC` that a fetch succeeded at does not wrap (R73, D4). -/
theorem toNat_add_two {w : Word} (h : w.toNat ≤ 0xFFE) : (w + 2).toNat = w.toNat + 2 := by
  bv_omega

/-- The events of a timer evaluation (R161): at most the `audio_stop`. -/
def timerEvents (k : Nat) (s : State) : List Event :=
  if s.st ≠ 0x00#8 ∧ countdown s.st k = 0x00#8 then [.audioStop] else []

theorem timerEvents_cases (k : Nat) (s : State) : timerEvents k s = [] ∨ timerEvents k s = [.audioStop] := by
  unfold timerEvents
  split
  · exact .inr rfl
  · exact .inl rfl

@[simp] theorem timerEval_out (k : Nat) (s : State) : (timerEval k s).out = s.out ++ timerEvents k s := by
  rw [timerEval_eq, timerEvents]

@[simp] theorem beforeDispatch_out (s : State) : (beforeDispatch s).out = s.out ++ timerEvents (nextInput s).k s :=
  timerEval_out _ (advance s)

/-! ### The fetch -/

/-- A fetch depends on `PC` and Memory alone (R72). -/
theorem fetch_congr {s t : State} (hpc : t.pc = s.pc) (hmem : t.mem = s.mem) : fetch t = fetch s := by
  simp only [fetch, memRead, State.byteAt, hpc, hmem]

/-- A fetch that answers both bytes of a word was in bounds and read that word. -/
theorem wordAtPc_of_fetch {s : State} {w : Word} (h : fetch s = some [hiByte w, loByte w]) :
    s.pc.toNat ≤ 0xFFE ∧ wordAtPc s = w := by
  have hpc : s.pc.toNat ≤ 0xFFE := by
    by_contra hout
    rw [fetch_eq_none (by omega)] at h
    cases h
  rw [fetch_eq_some hpc] at h
  simp only [Option.some.injEq, List.cons.injEq, and_true] at h
  obtain ⟨hhi, hlo⟩ := h
  exact ⟨hpc, by rw [wordAtPc, hhi, hlo, opcodeOf_bytes]⟩

/-! ### What a dispatched instruction leaves -/

/-- No instruction writes the parameters (R5). -/
theorem exec_cfg {i : Instr} {s t : State} (h : exec i s = .next t) : t.cfg = s.cfg := by
  replace h := effect_of_exec h
  induction h with
  | fault k _ ih => exact ih
  | skip c => rw [skipIf_eq, State.setPc_cfg]
  | ldStVx x => rw [audioOf_eq]
  | _ => rfl

theorem exec_of_skips {i : Instr} (hi : Skips i) (s : State) : ∃ c, exec i s = .next (skipIf c s) := by
  rcases hi with ⟨x, nn, rfl | rfl⟩ | ⟨x, y, rfl | rfl⟩ | ⟨x, rfl | rfl⟩ <;> exact ⟨_, rfl⟩

/-- The `PC` column of R24: an instruction that moves `PC` is a control transfer or a skip, and a skip moves it by 2. -/
theorem exec_pc_cases {i : Instr} {s t : State} (h : exec i s = .next t) (hne : t.pc ≠ s.pc) :
    i = .ret ∨ (∃ nnn, i = .jp nnn ∨ i = .call nnn ∨ i = .jpV0 nnn) ∨ (Skips i ∧ t.pc = s.pc + 2) := by
  obtain ⟨-, -, -, -, -, -, hpc⟩ := specialRegistersWrittenOnlyAsListed i s t h
  refine (hpc hne).imp_right (Or.imp_right fun hi => ⟨hi, ?_⟩)
  obtain ⟨c, hc⟩ := exec_of_skips hi s
  obtain rfl := Host.Outcome.next.inj (h.symm.trans hc)
  cases c with
  | true => rfl
  | false => exact absurd rfl hne

/-- An instruction that moves `PC` does not halt: `00EE` and `2nnn` fault before they write it (R86, R88), and the other
control transfers cannot fault. -/
theorem exec_mode_of_pc_ne {i : Instr} {s t : State} (h : exec i s = .next t) (hne : t.pc ≠ s.pc) : t.mode = s.mode := by
  rcases exec_pc_cases h hne with rfl | ⟨nnn, rfl | rfl | rfl⟩ | ⟨hi, -⟩
  · rcases execRet_cases s with ⟨_, hu⟩ | ⟨-, hu⟩ <;> obtain rfl := Host.Outcome.next.inj (h.symm.trans hu)
    · rfl
    · exact absurd rfl hne
  · obtain rfl := Host.Outcome.next.inj h
    rfl
  · rcases execCall_cases nnn s with ⟨_, hu⟩ | ⟨-, hu⟩ <;> obtain rfl := Host.Outcome.next.inj (h.symm.trans hu)
    · rfl
    · exact absurd rfl hne
  · obtain rfl := Host.Outcome.next.inj h
    rfl
  · obtain ⟨c, hu⟩ := exec_of_skips hi s
    obtain rfl := Host.Outcome.next.inj (h.symm.trans hu)
    rw [skipIf_eq, State.setPc_mode]

/-! ### The events of a dispatched instruction -/

/-- The trace of `t` is that of `s` with at most one more event. -/
def AppendsAtMostOne (s t : State) : Prop := ∃ own : List Event, t.out = s.out ++ own ∧ own.length ≤ 1

theorem AppendsAtMostOne.of_out_eq {s t : State} (h : t.out = s.out) : AppendsAtMostOne s t :=
  ⟨[], by rw [h, List.append_nil], Nat.zero_le 1⟩

theorem AppendsAtMostOne.emit {s t : State} (e : Event) (h : t.out = s.out) : AppendsAtMostOne s (emit e t) :=
  ⟨[e], by rw [emit_out, h], Nat.le_refl 1⟩

/-- A fault emits its diagnostic alone, so a form that wrote no event before has one (R158). -/
theorem AppendsAtMostOne.raise {s t : State} (k : Fault) (a : Word) (op : Option Word) (h : t.out = s.out) :
    AppendsAtMostOne s (raise k a op t) :=
  .emit _ h

/-- A write to the sound timer signals at most once (R143). -/
theorem AppendsAtMostOne.audioOf {s t : State} (old new : Byte) (h : t.out = s.out) :
    AppendsAtMostOne s (audioOf old new t) := by
  unfold Machine.audioOf
  split
  · exact .emit _ h
  · split
    · exact .emit _ h
    · exact .of_out_eq h

/-- `00EE`, `2nnn` and the memory instructions emit only their fault, `Dxyn` its frame or its fault, `Fx18` its signal,
`0nnn` its fault; the others emit nothing. -/
theorem exec_appendsAtMostOne {i : Instr} {s t : State} (h : exec i s = .next t) : AppendsAtMostOne s t := by
  have answered {u : State} (hu : exec i s = .next u) (hout : AppendsAtMostOne s u) : AppendsAtMostOne s t :=
    Host.Outcome.next.inj (h.symm.trans hu) ▸ hout
  cases i with
  | cls => exact answered (execCls_eq s) (.of_out_eq rfl)
  | ret =>
    rcases execRet_cases s with ⟨_, hu⟩ | ⟨-, hu⟩
    · exact answered hu (.of_out_eq rfl)
    · exact answered hu (.raise _ _ _ rfl)
  | call nnn =>
    rcases execCall_cases nnn s with ⟨_, hu⟩ | ⟨-, hu⟩
    · exact answered hu (.of_out_eq rfl)
    · exact answered hu (.raise _ _ _ rfl)
  | drw x y n =>
    obtain ⟨m, ⟨hit, hu⟩ | hu, -⟩ := execDrw_cases x y n s
    · exact answered hu (.emit _ rfl)
    · exact answered hu (.raise _ _ _ rfl)
  | ldBVx x =>
    obtain ⟨m, hu | hu, -⟩ := endAccess_storeRun (.ldBVx x) (bcdDigits (s.reg x)) (effBase s) s
    · exact answered hu (.of_out_eq rfl)
    · exact answered hu (.raise _ _ _ rfl)
  | ldMemVx x =>
    obtain ⟨m, hu | hu, -⟩ := endAccess_storeRun (.ldMemVx x) ((regsTo x).map s.reg) (effBase s) s
    · exact answered hu (.of_out_eq rfl)
    · exact answered hu (.raise _ _ _ rfl)
  | ldVxMem x =>
    obtain ⟨w, hu | hu, -⟩ := endAccess_loadRun (.ldVxMem x) (regsTo x) (effBase s) s
    · exact answered hu (.of_out_eq rfl)
    · exact answered hu (.raise _ _ _ rfl)
  | sys nnn => exact answered rfl (.raise _ _ _ rfl)
  | ldStVx x => exact answered rfl (.audioOf _ _ rfl)
  | seImm | sneImm | seReg | sneReg | skp | sknp =>
    exact answered rfl (.of_out_eq (by rw [skipIf_eq, State.setPc_out]))
  | _ => exact answered rfl (.of_out_eq rfl)

/-! ### The statements -/

/-- Settles O9, by cases on what the step does: the fetch fault is excluded, an unknown word leaves the advanced `PC`, and
a dispatched instruction is `exec_mode_of_pc_ne` and `exec_pc_cases`. -/
theorem stepAdvancesPcByTwo : Obligations.StepAdvancesPcByTwo := by
  intro s t hmode hpc ht
  have hadv : (beforeDispatch s).pc.toNat = s.pc.toNat + 2 := by rw [beforeDispatch_pc, toNat_add_two hpc]
  refine ⟨hadv, ?_⟩
  rcases stepByMode_cases s with ⟨hm, -⟩ | ⟨hm, -⟩ | ⟨-, hout, -⟩ | ⟨-, -, -, h⟩ | ⟨i, u, -, -, hd, hexec, h⟩
  · simp [hmode] at hm
  · simp [hmode] at hm
  · omega
  · obtain rfl := eq_of_step ht h
    rw [popInput_pc, raise_pc]
    exact ⟨fun _ => hadv, absurd hadv⟩
  · obtain rfl := eq_of_step ht h
    have dispatched {j : Instr} (hj : i = j) : Dispatches s j := hj ▸ ⟨hmode, hpc, hd⟩
    rw [popInput_pc, popInput_mode, ← hadv]
    refine ⟨fun hhalt => ?_, fun hne => ?_⟩
    · by_contra hne
      have := exec_mode_of_pc_ne hexec fun he => hne (congrArg _ he)
      simp [hhalt, hmode] at this
    · rcases exec_pc_cases hexec fun he => hne (congrArg _ he) with hi | ⟨nnn, hi⟩ | ⟨hi, hskip⟩
      · exact .inl (dispatched hi)
      · exact .inr (.inl ⟨nnn, hi.imp dispatched (Or.imp dispatched dispatched)⟩)
      · refine .inr (.inr ⟨by rw [hskip]; bv_omega, ?_⟩)
        rcases hi with ⟨x, nn, hi⟩ | ⟨x, y, hi⟩ | ⟨x, hi⟩
        · exact .inl ⟨x, nn, hi.imp dispatched dispatched⟩
        · exact .inr (.inl ⟨x, y, hi.imp dispatched dispatched⟩)
        · exact .inr (.inr ⟨x, hi.imp dispatched dispatched⟩)

/-- Settles O15: the step dispatches `1nnn` (its word decodes to it), which writes back the `PC` it came from. -/
theorem selfJumpRepeats : Obligations.SelfJumpRepeats := by
  rintro s ⟨hmode, nnn, haddr, hfetch⟩
  obtain ⟨hpc, hword⟩ := wordAtPc_of_fetch hfetch
  have dispatched : Dispatches s (.jp nnn) := ⟨hmode, hpc, hword ▸ decodeWord_encodeWord rfl⟩
  have hframe : popInput ((beforeDispatch s).setPc (addrOf nnn)) =
      { s with
        dt := (beforeDispatch s).dt, st := (beforeDispatch s).st, out := (beforeDispatch s).out
        inputs := s.inputs.tail, freeUsed := s.freeUsed + if s.inputs = [] then 1 else 0 } := by
    rw [haddr, popInput_eq, beforeDispatch, timerEval_eq]
    rfl
  refine ⟨_, (step_of_dispatches dispatched).trans (congrArg Host.Outcome.next hframe), ⟨hmode, nnn, haddr, ?_⟩, rfl⟩
  exact (fetch_congr rfl rfl).trans hfetch

/-- Settles O43, by cases on what the step does: each answers a next state, and none writes the parameters. -/
theorem everyStepHasANextState : Obligations.EveryStepHasANextState := by
  intro s
  rcases stepByMode_cases s with ⟨-, h⟩ | ⟨-, h⟩ | ⟨-, -, h⟩ | ⟨-, -, -, h⟩ | ⟨i, u, -, -, -, hexec, h⟩
  · exact ⟨_, h, rfl⟩
  · exact ⟨_, h, by simp⟩
  · exact ⟨_, h, by simp⟩
  · exact ⟨_, h, by simp⟩
  · exact ⟨_, h, by rw [popInput_cfg, exec_cfg hexec, beforeDispatch_cfg]⟩

/-- Settles O48, by cases on what the step does: the timers' events come first, and after them the fault's event or what
`exec_appendsAtMostOne` allows. -/
theorem stepEmitsAtMostTwoEvents : Obligations.StepEmitsAtMostTwoEvents := by
  intro s t ht
  have htimers := timerEvents_cases (nextInput s).k s
  rcases stepByMode_cases s with ⟨hm, h⟩ | ⟨hm, h⟩ | ⟨hm, -, h⟩ | ⟨hm, -, -, h⟩ | ⟨i, u, hm, -, -, hexec, h⟩
  all_goals
    obtain rfl := eq_of_step ht h
    simp only [hm, reduceCtorEq, false_implies, true_implies, and_true, popInput_out]
  · exact ⟨[], [], by simp⟩
  · exact ⟨_, [], by simp, htimers, by simp⟩
  · exact ⟨[], [_], by rw [raise_out, List.append_nil], .inl rfl, Nat.le_refl 1⟩
  · exact ⟨_, [_], by rw [raise_out, beforeDispatch_out], htimers, Nat.le_refl 1⟩
  · obtain ⟨own, hout, hlen⟩ := exec_appendsAtMostOne hexec
    exact ⟨_, own, by rw [hout, beforeDispatch_out], htimers, hlen⟩

/-- Settles O8: `step_of_dispatches`, and the two cases of the input list. -/
theorem stepRunsTheDecodedInstruction : Obligations.StepRunsTheDecodedInstruction := by
  refine ⟨fun s t i hi hexec => ?_, fun s inp rest hs => ?_, fun s hs => ?_⟩
  · rw [step_of_dispatches hi, ← atDispatch_eq, hexec, endStep]
  · simp only [nextInput, popInput, hs, and_self]
  · simp only [nextInput, popInput, hs, and_self]

/-- Settles O10: the fetch and the step of a `PC` in bounds and out of bounds. -/
theorem fetchOutOfBoundsHalts : Obligations.FetchOutOfBoundsHalts :=
  ⟨fun _ => fetch_eq_some, fun _ => step_of_fetch_outOfBounds⟩

/-- Settles O12: the HALT step answers its state, and a halted state's outcome is its fault. -/
theorem haltAbsorbs : Obligations.HaltAbsorbs := by
  intro s hs
  exact ⟨by simp only [step, stepByMode, hs, haltStep], if_pos hs⟩

/-- Settles O13, by cases on the key event: with none the wake-up leaves the state, with one it writes `WX`'s register. -/
theorem waitStepTakesAKeyPress : Obligations.WaitStepTakesAKeyPress := by
  intro s hs
  refine ⟨fun hnone => ?_, fun k hk => ?_⟩
  · rw [step_of_waitKey hs, hnone, wakeUp]
  · refine ⟨wakeUp (some k) (timerEval (nextInput s).k s), by rw [step_of_waitKey hs, hk], ?_, fun r hr => ?_, rfl, rfl⟩
    · rw [State.reg_wakeUp_some, timerEval_wx, if_pos rfl, keyByte, BitVec.toNat_setWidth]
      omega
    · rw [State.reg_wakeUp_some, timerEval_wx, if_neg hr, State.reg_timerEval]

end Sys2Proof.Machine
end

section
/-! The family 41_control_flow.md (R86 to R95): the stack pair `00EE` and `2nnn`, the jumps, the register skips, and the
legacy call. What a well-formed instruction's word is, and what a fault leaves, is said once in the statements' own terms. -/

namespace Sys2Proof.Machine

open Sys2Proof Sys2Proof.Claims

/-! ### The terms of the statements -/

/-- The word of a well-formed instruction and the instruction stand for each other (R52, R55 to R58). -/
theorem encodes_encodeWord {i : Instr} (h : i.wellFormed = true) : Encodes (encodeWord i) i :=
  ⟨decodeWord_encodeWord h, rfl⟩

/-- The fault of an instruction is the one R158 describes for its word. -/
theorem raiseBy_eq_faulted (i : Instr) (k : Fault) (s : State) : raiseBy i k s = Faulted k (encodeWord i) s := rfl

theorem onlyPc_setPc (s : State) (w : Word) : OnlyPc s (s.setPc w) := ⟨rfl, State.byteAt_setPc s w⟩

/-- An instruction that is a conditional skip skips exactly on its condition (R95). -/
theorem skipsWhen_of_exec {i : Instr} {c : State → Prop} [DecidablePred c]
    (h : ∀ s, exec i s = .next (skipIf (decide (c s)) s)) : SkipsWhen i c := by
  intro s
  refine ⟨_, h s, ?_⟩
  rw [skipIf_eq]
  exact ⟨onlyPc_setPc s _, fun hc => by simp [hc], fun hc => by simp [hc]⟩

/-! ### Jump targets -/

theorem addrOf_toNat (nnn : Addr12) : (addrOf nnn).toNat = nnn.toNat :=
  BitVec.toNat_setWidth_of_le (by decide)

theorem zext16_toNat (b : Byte) : (zext16 b).toNat = b.toNat :=
  BitVec.toNat_setWidth_of_le (by decide)

/-- The sum of `Bnnn` is below 2 ^ 16, so 16 bits hold it in full (R93, D4). -/
theorem indexedTarget_toNat (nnn : Addr12) (s : State) :
    (indexedTarget nnn s).toNat = nnn.toNat + (s.reg Reg.v0).toNat := by
  have hn := nnn.isLt
  have hv := (s.reg Reg.v0).isLt
  rw [indexedTarget, BitVec.toNat_add, addrOf_toNat, zext16_toNat, Nat.mod_eq_of_lt (by omega)]

/-! ### The stack pair -/

/-- Settles O16: the two cases of `00EE`, each excluded by the other's `SP`. -/
theorem returnPopsOrUnderflows : Obligations.ReturnPopsOrUnderflows := by
  refine ⟨encodes_encodeWord (i := .ret) rfl, fun s => ?_⟩
  rcases execRet_cases s with ⟨hsp, h⟩ | ⟨hsp, h⟩
  · refine ⟨fun j hj hs => ⟨_, h, ?_, ?_, rfl, fun _ => rfl⟩, fun h0 => absurd h0 hsp⟩
    all_goals simp only [hs, Nat.add_sub_cancel]
  · rw [raiseBy_eq_faulted] at h
    exact ⟨fun j hj hs => by omega, fun _ => h⟩

/-- Settles O17: the two cases of `2nnn`; a push writes the entry at `SP` and no other. -/
theorem callPushesOrOverflows : Obligations.CallPushesOrOverflows := by
  refine fun nnn => ⟨encodes_encodeWord (i := .call nnn) rfl, fun s => ?_⟩
  rcases execCall_cases nnn s with ⟨hsp, h⟩ | ⟨hsp, h⟩
  · refine ⟨fun _ => ⟨_, h, ?_, fun j hj hne => ?_, rfl, addrOf_toNat nnn, rfl, fun _ => rfl⟩, fun h16 => by omega⟩
    · exact Vector.getElem_set_self hsp
    · exact Vector.getElem_set_ne hsp hj hne.symm
  · rw [raiseBy_eq_faulted] at h
    exact ⟨fun hlt => by omega, fun _ => h⟩

/-- Settles O18 from O17 and O16: the return pops the entry that the call pushed, and the entries below it are as the call
found them. -/
theorem callThenReturnRestoresPc : Obligations.CallThenReturnRestoresPc := by
  intro nnn s hsp
  obtain ⟨t, hcall, hpushed, hbelow, htsp, -⟩ := ((callPushesOrOverflows nnn).2 s).1 hsp
  refine ⟨t, hcall, fun u husp hstk => ?_⟩
  obtain ⟨w, hret, hwpc, hwsp, hframe, -⟩ := (returnPopsOrUnderflows.2 u).1 s.sp.val hsp (by rw [husp, htsp])
  refine ⟨w, hret, ?_, Fin.ext hwsp, fun j hj hlt => ?_⟩
  · calc w.pc = u.stkAt s.sp.val hsp := hwpc
      _ = t.stkAt s.sp.val hsp := hstk _ hsp (by omega)
      _ = s.pc := hpushed
  · calc w.stkAt j hj = u.stkAt j hj := by rw [hframe]; rfl
      _ = t.stkAt j hj := hstk j hj (by omega)
      _ = s.stkAt j hj := hbelow j hj (by omega)

/-! ### Jumps, skips and the legacy call -/

/-- Settles O19: both jumps write `PC` alone, with the targets above. -/
theorem jumpTargets : Obligations.JumpTargets := fun nnn =>
  ⟨encodes_encodeWord (i := .jp nnn) rfl, encodes_encodeWord (i := .jpV0 nnn) rfl, fun s =>
    ⟨⟨_, rfl, addrOf_toNat nnn, onlyPc_setPc s _⟩, ⟨_, rfl, indexedTarget_toNat nnn s, onlyPc_setPc s _⟩⟩⟩

/-- The keys of prefixes 5 and 9 other than 0 select nothing (R55, R59). -/
theorem decodeWord_prefix_5_9_of_ne_zero (x y : Reg) {n : Nibble} (hn : n ≠ 0x0#4) :
    decodeWord (0x5#4 ++ x ++ y ++ n) = .unknownOpcode ∧ decodeWord (0x9#4 ++ x ++ y ++ n) = .unknownOpcode := by
  constructor <;> simp only [decodeWord, selectInstr, fieldsOf_xyn, whenZero, if_neg hn]

/-- Settles O20: each of the four is a conditional skip of its own condition. -/
theorem registerSkips : Obligations.RegisterSkips := fun x y nn =>
  ⟨encodes_encodeWord (i := .seImm x nn) rfl, skipsWhen_of_exec fun _ => rfl,
    encodes_encodeWord (i := .sneImm x nn) rfl, skipsWhen_of_exec fun _ => rfl,
    encodes_encodeWord (i := .seReg x y) rfl, skipsWhen_of_exec fun _ => rfl,
    encodes_encodeWord (i := .sneReg x y) rfl, skipsWhen_of_exec fun _ => rfl,
    fun _ => decodeWord_prefix_5_9_of_ne_zero x y⟩

/-- Settles O21: `0nnn` is well formed exactly off the words of `00E0` and `00EE`, a decoded word is the encoding of its
instruction, and the meaning is the fault in every state. -/
theorem legacyCallAlwaysFaults : Obligations.LegacyCallAlwaysFaults := by
  refine ⟨fun nnn hcls hret => ?_, fun op nnn hop => ?_, fun nnn s => ?_⟩
  · exact encodes_encodeWord (i := .sys nnn) (by simp [Instr.wellFormed, hcls, hret])
  · obtain ⟨rfl, hwf⟩ := encodeOfDecodeIsTheWord op _ hop
    exact ⟨(fieldsOf_nnn 0x0#4 nnn).1, (Laws.EncodesTableRow.sys nnn).2 nnn rfl hwf⟩
  · exact congrArg Host.Outcome.next (raiseBy_eq_faulted (.sys nnn) .legacyCall s)

end Sys2Proof.Machine
end

section
/-! The family 42_alu.md (R100 to R114): the wrap-around arithmetic and the flags as numbers, the writes of one register
and of a register and `VF` in the two orders of R100(b), and from these the twelve instructions. -/

namespace Sys2Proof.Machine

open Sys2Proof Sys2Proof.Claims

/-! ### Results and flags as numbers -/

theorem wrapAdd_toNat (a b : Byte) : (wrapAdd a b).toNat = (a.toNat + b.toNat) % 256 :=
  (BitVec.toNat_ofNat ..).trans (Nat.mod_mod ..)

theorem wrapSub_toNat (a b : Byte) : (wrapSub a b).toNat = (a.toNat + 256 - b.toNat) % 256 := by
  have := b.isLt
  simp only [wrapSub, diff, Config.wrapModulus, BitVec.toNat_ofInt]
  omega

theorem halve_toNat (a : Byte) : (halve a).toNat = a.toNat / 2 := by
  rw [halve, BitVec.toNat_ushiftRight, Nat.shiftRight_eq_div_pow]

theorem double_toNat (a : Byte) : (double a).toNat = a.toNat * 2 % 256 :=
  (BitVec.toNat_ofNat ..).trans (Nat.mod_mod ..)

/-- A flag is the number of its bit (R100(c)). -/
theorem flagByte_toNat (c : Bool) : (flagByte c).toNat = c.toNat := by
  cases c <;> rfl

theorem flagByte_decide_toNat (p : Prop) [Decidable p] : (flagByte (decide p)).toNat = if p then 1 else 0 := by
  by_cases h : p <;> simp [flagByte_toNat, h]

theorem flagByte_carry_toNat (a b : Byte) : (flagByte (carry a b)).toNat = if a.toNat + b.toNat > 255 then 1 else 0 :=
  flagByte_decide_toNat _

/-- A difference is below 0 exactly where the first operand is below the second (R108). -/
theorem flagByte_borrow_toNat (a b : Byte) : (flagByte (borrow a b)).toNat = if a.toNat < b.toNat then 1 else 0 := by
  have hneg : diff a b < 0 ↔ a.toNat < b.toNat := by
    simp only [diff]
    omega
  rw [borrow, flagByte_decide_toNat, if_congr hneg rfl rfl]

theorem flagByte_lsb_toNat (a : Byte) : (flagByte (lsb a)).toNat = a.toNat % 2 := by
  rw [flagByte_toNat, lsb, BitVec.getLsbD, Nat.toNat_testBit, Nat.pow_zero, Nat.div_one]

theorem flagByte_msb_toNat (a : Byte) : (flagByte (msb a)).toNat = a.toNat / 128 := by
  have := a.isLt
  rw [flagByte_toNat, msb, BitVec.getLsbD, Nat.toNat_testBit]
  omega

/-! ### The writes of one register -/

theorem State.reg_setReg_self (s : State) (x : Reg) (b : Byte) : (s.setReg x b).reg x = b := by
  rw [State.reg_setReg, if_pos rfl]

theorem othersSame_setReg (s : State) (x : Reg) (b : Byte) : OthersSame x s (s.setReg x b) := fun r hr => by
  rw [State.reg_setReg, if_neg hr]

theorem onlyV_setReg (s : State) (x : Reg) (b : Byte) : OnlyV s (s.setReg x b) := ⟨rfl, State.byteAt_setReg s x b⟩

@[simp] theorem State.reg_popInput (s : State) (r : Reg) : (popInput s).reg r = s.reg r :=
  State.reg_congr (by rw [popInput_eq]) r

/-! ### The writes of a register and `VF` -/

/-- Two writes leave every third register. -/
theorem othersSame2_setReg_setReg (s : State) (x y : Reg) (a b : Byte) :
    OthersSame2 x y s ((s.setReg x a).setReg y b) := fun r hx hy => by
  rw [State.reg_setReg, if_neg hy, State.reg_setReg, if_neg hx]

/-- What an instruction of the order result, flag leaves: the flag stays whatever `x` is, the result unless `x` is F. -/
theorem exec_resultThenFlag {i : Instr} {s : State} {x : Reg} {r : Byte} {f : Bool} {result flag : Nat}
    (h : exec i s = .next (resultThenFlag x r f s)) (hr : r.toNat = result) (hf : (flagByte f).toNat = flag) :
    ∃ t, exec i s = .next t ∧ (x ≠ 0xF#4 → (t.reg x).toNat = result) ∧ (t.reg 0xF#4).toNat = flag ∧
      OthersSame2 x 0xF#4 s t ∧ OnlyV s t := by
  refine ⟨_, h, fun hx => ?_, ?_, othersSame2_setReg_setReg _ _ _ _ _, rfl, fun _ => rfl⟩
  · rw [resultThenFlag, State.reg_setReg, if_neg hx, State.reg_setReg_self, hr]
  · rw [resultThenFlag, State.reg_setReg_self, hf]

/-- What an instruction of the order flag, result leaves: the result stays whatever `x` is, the flag unless `x` is F. -/
theorem exec_flagThenResult {i : Instr} {s : State} {x : Reg} {r : Byte} {f : Bool} {result flag : Nat}
    (h : exec i s = .next (flagThenResult x r f s)) (hr : r.toNat = result) (hf : (flagByte f).toNat = flag) :
    ∃ t, exec i s = .next t ∧ (t.reg x).toNat = result ∧ (x ≠ 0xF#4 → (t.reg 0xF#4).toNat = flag) ∧
      OthersSame2 x 0xF#4 s t ∧ OnlyV s t := by
  refine ⟨_, h, ?_, fun hx => ?_, fun q hx hvf => othersSame2_setReg_setReg s _ _ _ _ q hvf hx, rfl, fun _ => rfl⟩
  · rw [flagThenResult, State.reg_setReg_self, hr]
  · rw [flagThenResult, State.reg_setReg, if_neg hx.symm, State.reg_setReg_self, hf]

/-! ### The statements -/

/-- Settles O22: each of the three writes one register; over a whole step the register is the one the dispatch wrote,
and `PC` the advanced one. -/
theorem loadsAndImmediateAdd : Obligations.LoadsAndImmediateAdd := by
  refine fun x y nn => ⟨encodes_encodeWord (i := .ldImm x nn) rfl, encodes_encodeWord (i := .addImm x nn) rfl,
    encodes_encodeWord (i := .ldReg x y) rfl, fun s => ⟨?_, ?_, ?_, fun hi => ?_⟩⟩
  · exact ⟨_, rfl, State.reg_setReg_self .., othersSame_setReg _ _ _, onlyV_setReg ..⟩
  · exact ⟨_, rfl, by rw [State.reg_setReg_self, wrapAdd_toNat], othersSame_setReg _ _ _, onlyV_setReg ..⟩
  · exact ⟨_, rfl, State.reg_setReg_self .., othersSame_setReg _ _ _, onlyV_setReg ..⟩
  · obtain ⟨-, hpc, -⟩ := id hi
    refine ⟨_, stepRunsTheDecodedInstruction.1 s _ _ hi rfl, ?_, ?_⟩
    · rw [State.reg_popInput, State.reg_setReg_self]
    · rw [popInput_pc, State.setReg_pc, atDispatch_eq, beforeDispatch_pc, toNat_add_two hpc]

/-- Settles O23: each of the three writes one register with the operation on the whole bytes, which acts bit by bit. -/
theorem logicOperations : Obligations.LogicOperations := by
  refine fun x y => ⟨encodes_encodeWord (i := .orReg x y) rfl, encodes_encodeWord (i := .andReg x y) rfl,
    encodes_encodeWord (i := .xorReg x y) rfl, fun s => ⟨?_, ?_, ?_⟩⟩
  · refine ⟨_, rfl, othersSame_setReg _ _ _, onlyV_setReg .., fun j => ?_⟩
    rw [State.reg_setReg_self, BitVec.getLsbD_or]
  · refine ⟨_, rfl, othersSame_setReg _ _ _, onlyV_setReg .., fun j => ?_⟩
    rw [State.reg_setReg_self, BitVec.getLsbD_and]
  · refine ⟨_, rfl, othersSame_setReg _ _ _, onlyV_setReg .., fun j => ?_⟩
    rw [State.reg_setReg_self, BitVec.getLsbD_xor]

/-- Settles O24: the order result, flag with the sum and its carry. -/
theorem addSetsCarry : Obligations.AddSetsCarry := fun x y =>
  ⟨encodes_encodeWord (i := .addReg x y) rfl, fun _ =>
    exec_resultThenFlag rfl (wrapAdd_toNat ..) (flagByte_carry_toNat ..)⟩

/-- Settles O25: the order result, flag with each difference and its borrow. -/
theorem subtractionsSetBorrow : Obligations.SubtractionsSetBorrow := fun x y =>
  ⟨encodes_encodeWord (i := .sub x y) rfl, encodes_encodeWord (i := .subn x y) rfl, fun _ =>
    ⟨exec_resultThenFlag rfl (wrapSub_toNat ..) (flagByte_borrow_toNat ..),
      exec_resultThenFlag rfl (wrapSub_toNat ..) (flagByte_borrow_toNat ..)⟩⟩

/-- Settles O26: the order flag, result with each shift and the bit it loses. -/
theorem shiftsSetTheBitShiftedOut : Obligations.ShiftsSetTheBitShiftedOut := fun x y =>
  ⟨encodes_encodeWord (i := .shr x y) rfl, encodes_encodeWord (i := .shl x y) rfl, fun _ =>
    ⟨exec_flagThenResult rfl (halve_toNat _) (flagByte_lsb_toNat _),
      exec_flagThenResult rfl (double_toNat _) (flagByte_msb_toNat _)⟩⟩

/-- Settles O27: the register written holds the masked byte, and a mask leaves no bit of its complement. -/
theorem randomByteIsMasked : Obligations.RandomByteIsMasked := by
  refine fun x nn => ⟨encodes_encodeWord (i := .rnd x nn) rfl, fun s => ?_⟩
  refine ⟨_, rfl, State.reg_setReg_self .., ?_, othersSame_setReg _ _ _, onlyV_setReg ..⟩
  calc (s.setReg x (nn &&& (nextInput s).rnd)).reg x &&& ~~~nn
      = nn &&& (nextInput s).rnd &&& ~~~nn := by rw [State.reg_setReg_self]
    _ = nn &&& ~~~nn &&& (nextInput s).rnd := by
        rw [BitVec.and_assoc, BitVec.and_comm (nextInput s).rnd, BitVec.and_assoc]
    _ = 0x00#8 := by
        rw [BitVec.and_not_self]
        exact BitVec.zero_and

end Sys2Proof.Machine
end

section
/-! The family 43_index_memory.md (R120 to R126): the values that reach `I` as numbers, a run of stores and a run of
loads with what each leaves where it completes and where it faults, and from these the six instructions. -/

namespace Sys2Proof.Machine

open Sys2Proof Sys2Proof.Claims

/-! ### The values of `I` -/

theorem onlyI_setI (s : State) (w : Word) : OnlyI s (s.setI w) := ⟨rfl, State.byteAt_setI s w⟩

theorem indexSum_toNat (i : Word) (a : Byte) : (indexSum i a).toNat = (i.toNat + a.toNat) % 4096 :=
  (BitVec.toNat_ofNat ..).trans (Nat.mod_eq_of_lt ((Nat.mod_lt _ (by decide)).trans (by decide)))

/-- Five times a byte fits 16 bits, so only the addition of the font base could wrap (R123). -/
theorem glyphAddr_toNat {fontBase : Word} {a : Byte} (h : fontBase.toNat + a.toNat * 5 < 2 ^ 16) :
    (glyphAddr fontBase a).toNat = fontBase.toNat + a.toNat * 5 := by
  have hmul : (zext16 a * BitVec.ofNat 16 Config.glyphBytes).toNat = a.toNat * 5 := by
    rw [BitVec.toNat_mul, zext16_toNat]
    exact Nat.mod_eq_of_lt (show a.toNat * 5 < 2 ^ 16 by omega)
  rw [glyphAddr, BitVec.toNat_add, hmul, Nat.mod_eq_of_lt h]

/-- Settles O28: both instructions write `I` alone, with the sums above. -/
theorem indexLoadAndAdd : Obligations.IndexLoadAndAdd := fun x nnn =>
  ⟨encodes_encodeWord (i := .ldI nnn) rfl, encodes_encodeWord (i := .addIVx x) rfl, fun s =>
    ⟨⟨_, rfl, addrOf_toNat nnn, onlyI_setI s _⟩, ⟨_, rfl, indexSum_toNat s.i (s.reg x), onlyI_setI s _⟩⟩⟩

/-- Settles O29: `I` alone is written; under R5's constraints the font base lies low enough for every glyph address. -/
theorem glyphAddress : Obligations.GlyphAddress := by
  refine fun x => ⟨encodes_encodeWord (i := .ldFVx x) rfl, fun s => ⟨_, rfl, fun hwf => ?_, onlyI_setI s _⟩⟩
  have hfont : s.cfg.fontBase.toNat < 0xF00 := by
    obtain ⟨hfont, hprog⟩ := hwf
    simp only [Config.fontSize, Config.fbBase] at hfont hprog
    omega
  have hreg := (s.reg x).isLt
  exact glyphAddr_toNat (by omega)

/-! ### A run of stores -/

/-- What a storing instruction leaves (R120): the bytes in bounds are stored from `base` on, and no other byte changes.
The run completes where it ends in bounds, and raises out-of-bounds-memory-access where it does not. -/
theorem endAccess_storeRun_stores (i : Instr) {xs : List Byte} (base : Nat) {s : State} (hne : xs ≠ [])
    (hwf : Memory.wf s.mem = true) :
    ∃ t, OnlyMem s t ∧
      (base + xs.length ≤ 0x1000 → endAccess i (storeRun xs base s) = .next t) ∧
      (0x1000 < base + xs.length →
        endAccess i (storeRun xs base s) = .next (Faulted .outOfBounds (encodeWord i) t)) ∧
      (∀ (j : Nat) (h : j < xs.length), base + j ≤ 0xFFF → t.byteAt (base + j) = xs[j]) ∧
      ∀ a, ¬ (base ≤ a ∧ a < base + xs.length ∧ a ≤ 0xFFF) → t.byteAt a = s.byteAt a := by
  have hlen : (xs.take (0x1000 - base)).length = min (0x1000 - base) xs.length := List.length_take
  refine ⟨{ s with mem := loadBytes (xs.take (0x1000 - base)) base s.mem }, rfl, fun h => ?_, fun h => ?_,
    fun j hj hb => ?_, fun a ha => ?_⟩
  · rw [storeRun_ok xs base s h, List.take_of_length_le (by omega)]
    rfl
  · rw [storeRun_error xs base s hne h]
    rfl
  · have hin : base ≤ base + j ∧ base + j - base < (xs.take (0x1000 - base)).length := by omega
    rw [State.byteAt, read_loadBytes _ _ _ hwf (by simp only [Config.memSize]; omega), dif_pos hin]
    simp only [List.getElem_take, Nat.add_sub_cancel_left]
  · exact read_loadBytes_other _ _ _ _ (by omega)

/-! ### The decimal digits -/

/-- A number up to a byte's is a byte. -/
theorem toNat_ofNat_of_le_byte {a : Byte} {n : Nat} (h : n ≤ a.toNat) : (BitVec.ofNat 8 n).toNat = n :=
  (BitVec.toNat_ofNat ..).trans (Nat.mod_eq_of_lt (h.trans_lt a.isLt))

@[simp] theorem bcdDigits_length (a : Byte) : (bcdDigits a).length = 3 := rfl

/-- The digits as numbers (R124). -/
theorem bcdDigits_toNat (a : Byte) :
    (bcdDigits a).map BitVec.toNat = [a.toNat / 100, a.toNat / 10 % 10, a.toNat % 10] := by
  have hundreds := toNat_ofNat_of_le_byte (Nat.div_le_self a.toNat 100)
  have tens := toNat_ofNat_of_le_byte ((Nat.mod_le _ 10).trans (Nat.div_le_self a.toNat 10))
  have units := toNat_ofNat_of_le_byte (Nat.mod_le a.toNat 10)
  simp only [bcdDigits, List.map_cons, List.map_nil, hundreds, tens, units]

/-- Settles O30: `Fx33` is a run of three stores, of the three digits. -/
theorem bcdStoresThreeDigits : Obligations.BcdStoresThreeDigits := by
  refine fun x => ⟨encodes_encodeWord (i := .ldBVx x) rfl, fun s hwf => ?_⟩
  obtain ⟨t, honly, hdone, hfault, hstored, hother⟩ := endAccess_storeRun_stores (.ldBVx x)
    (xs := bcdDigits (s.reg x)) (effBase s) (List.cons_ne_nil _ _) hwf
  rw [bcdDigits_length] at hdone hfault hother
  have digit (j : Nat) (hj : j < 3) (hb : effBase s + j ≤ 0xFFF) : (t.byteAt (effBase s + j)).toNat =
      [(s.reg x).toNat / 100, (s.reg x).toNat / 10 % 10, (s.reg x).toNat % 10][j] := by
    have hlt : j < (bcdDigits (s.reg x)).length := by rwa [bcdDigits_length]
    rw [hstored j hlt hb, ← List.getElem_map BitVec.toNat (h := by rwa [List.length_map])]
    exact List.getElem_of_eq (bcdDigits_toNat _) _
  refine ⟨fun h => ⟨t, hdone (by omega), honly, ?_⟩, fun h => ⟨t, hfault (by omega), honly, ?_⟩⟩
  · exact ⟨digit 0 (by decide) (by omega), digit 1 (by decide) (by omega), digit 2 (by decide) h,
      fun a ha => hother a (by omega)⟩
  · exact ⟨digit 0 (by decide), digit 1 (by decide), fun a ha => hother a (by omega)⟩

/-! ### The registers `V0` to `V[x]` -/

/-- The register at its own number in the list. -/
theorem regsTo_getElem_toNat {x r : Reg} (h : r.toNat < (regsTo x).length) : (regsTo x)[r.toNat] = r := by
  rw [regsTo_getElem, BitVec.ofNat_toNat, BitVec.setWidth_eq]

/-- The first `k` registers of the list are those with a number below `k`. -/
theorem toNat_lt_of_mem_take_regsTo {x r : Reg} {k : Nat} (h : r ∈ (regsTo x).take k) : r.toNat < k := by
  obtain ⟨j, hj, rfl⟩ := List.mem_take_iff_getElem.mp h
  rw [regsTo_getElem, BitVec.toNat_ofNat]
  exact (Nat.mod_le ..).trans_lt (hj.trans_le (Nat.min_le_left ..))

/-- Settles O31: `Fx55` is a run of stores of `V0` to `V[x]`, the byte at I + r that of `V[r]`. -/
theorem storeRegistersAscending : Obligations.StoreRegistersAscending := by
  refine fun x => ⟨encodes_encodeWord (i := .ldMemVx x) rfl, fun s hwf => ?_⟩
  obtain ⟨t, honly, hdone, hfault, hstored, hother⟩ := endAccess_storeRun_stores (.ldMemVx x)
    (xs := (regsTo x).map s.reg) (effBase s) (mt List.map_eq_nil_iff.mp (regsTo_ne_nil x)) hwf
  rw [List.length_map, regsTo_length] at hdone hfault hother
  have stored (r : Reg) (hr : r.toNat ≤ x.toNat) (hb : effBase s + r.toNat ≤ 0xFFF) :
      t.byteAt (effBase s + r.toNat) = s.reg r := by
    rw [hstored r.toNat (by rw [List.length_map, regsTo_length]; omega) hb, List.getElem_map, regsTo_getElem_toNat]
  refine ⟨fun h => ⟨t, hdone (by omega), honly, ?_⟩, fun h => ⟨t, hfault (by omega), honly, stored, ?_⟩⟩
  · exact ⟨fun r hr => stored r hr (by omega), fun a ha => hother a (by omega)⟩
  · exact fun a ha => hother a (by omega)

/-! ### A run of loads -/

/-- The loads in bounds: each of their registers is filled from its address, and no other register changes. -/
theorem loadRun_take (rs : List Reg) (base : Nat) (s : State) :
    ∃ t, loadRun (rs.take (0x1000 - base)) base s = .ok t ∧ OnlyV s t ∧
      (rs.Nodup → ∀ (j : Nat) (h : j < rs.length), base + j ≤ 0xFFF → t.reg rs[j] = s.byteAt (base + j)) ∧
      ∀ r, r ∉ rs.take (0x1000 - base) → t.reg r = s.reg r := by
  have hlen : (rs.take (0x1000 - base)).length = min (0x1000 - base) rs.length := List.length_take
  by_cases hbase : base ≤ 0x1000
  · obtain ⟨t, hrun, hv, hother, hloaded⟩ := loadRun_ok (rs.take (0x1000 - base)) base s
      (by simp only [Config.memSize]; omega)
    refine ⟨t, hrun, ⟨hv, State.byteAt_congr (by rw [hv])⟩, fun hnodup j hj hb => ?_, hother⟩
    rw [← hloaded (hnodup.sublist (List.take_sublist ..)) j (by omega), List.getElem_take]
  · rw [Nat.sub_eq_zero_of_le (by omega), List.take_zero]
    exact ⟨s, rfl, ⟨rfl, fun _ => rfl⟩, fun _ j _ hb => by omega, fun _ _ => rfl⟩

/-- What a loading instruction leaves (R120): the registers whose byte is in bounds are loaded, and no other register
changes. The run completes where it ends in bounds, and raises out-of-bounds-memory-access where it does not. -/
theorem endAccess_loadRun_loads (i : Instr) {rs : List Reg} (base : Nat) (s : State) (hne : rs ≠ [])
    (hnodup : rs.Nodup) :
    ∃ t, OnlyV s t ∧
      (base + rs.length ≤ 0x1000 → endAccess i (loadRun rs base s) = .next t) ∧
      (0x1000 < base + rs.length →
        endAccess i (loadRun rs base s) = .next (Faulted .outOfBounds (encodeWord i) t)) ∧
      (∀ (j : Nat) (h : j < rs.length), base + j ≤ 0xFFF → t.reg rs[j] = s.byteAt (base + j)) ∧
      ∀ r, r ∉ rs.take (0x1000 - base) → t.reg r = s.reg r := by
  obtain ⟨t, hrun, honly, hloaded, hother⟩ := loadRun_take rs base s
  refine ⟨t, honly, fun h => ?_, fun h => ?_, hloaded hnodup, hother⟩
  · rw [List.take_of_length_le (by omega)] at hrun
    rw [hrun, endAccess]
  · obtain ⟨u, herror, hrun'⟩ := loadRun_error rs base s hne h
    obtain rfl : t = u := Except.ok.inj (hrun.symm.trans hrun')
    rw [herror, endAccess, raiseBy_eq_faulted]

/-- Settles O32: `Fx65` is a run of loads of `V0` to `V[x]`, `V[r]` from I + r. -/
theorem loadRegistersAscending : Obligations.LoadRegistersAscending := by
  refine fun x => ⟨encodes_encodeWord (i := .ldVxMem x) rfl, fun s => ?_⟩
  obtain ⟨t, honly, hdone, hfault, hloaded, hother⟩ := endAccess_loadRun_loads (.ldVxMem x) (effBase s) s
    (regsTo_ne_nil x) (regsTo_nodup x)
  rw [regsTo_length] at hdone hfault
  have loaded (r : Reg) (hr : r.toNat ≤ x.toNat) (hb : effBase s + r.toNat ≤ 0xFFF) :
      t.reg r = s.byteAt (effBase s + r.toNat) := by
    have hlt : r.toNat < (regsTo x).length := by rw [regsTo_length]; omega
    rw [← hloaded r.toNat hlt hb, regsTo_getElem_toNat]
  have kept (r : Reg) (hr : 0xFFF < effBase s + r.toNat ∨ x.toNat < r.toNat) : t.reg r = s.reg r := by
    refine hother r fun hmem => ?_
    have hlo := toNat_lt_of_mem_take_regsTo hmem
    have hhi := (mem_regsTo x r).mp (List.mem_of_mem_take hmem)
    omega
  refine ⟨fun h => ⟨t, hdone (by omega), honly, ?_⟩, fun h => ⟨t, hfault (by omega), honly, loaded, kept⟩⟩
  exact ⟨fun r hr => loaded r hr (by omega), fun r hr => kept r (.inr hr)⟩

end Sys2Proof.Machine
end

section
/-! The family 44_display.md (R130 to R137): a draw is its run of rows with `VF` and the frame written at the end, so the
statements about one more row and about the first row out of bounds read off how a run of rows continues, and those about
the picture read off one description of what a completed draw does. -/

namespace Sys2Proof.Machine

open Sys2Proof Sys2Proof.Claims

/-! ### Clear screen -/

/-- Settles O33: the run of stores completes, and a byte of the cleared memory is 0 exactly in the framebuffer's range. -/
theorem clearScreenZeroesExactlyTheFramebuffer : Obligations.ClearScreenZeroesExactlyTheFramebuffer := by
  refine ⟨encodes_encodeWord (i := .cls) rfl, fun s hwf => ⟨_, execCls_eq s, rfl, fun a hlo hhi => ?_, fun a ha => ?_⟩⟩
  · exact (read_cleared hwf a).trans (if_pos ⟨hlo, hhi⟩)
  · exact (read_cleared hwf a).trans (if_neg ha)

/-! ### The end of a draw -/

theorem flagByte_eq_one (c : Bool) : flagByte c = 0x01#8 ↔ c = true := by
  cases c <;> decide

@[simp] theorem endDraw_mem (hit : Bool) (s : State) : (endDraw hit s).mem = s.mem := rfl

@[simp] theorem byteAt_endDraw (hit : Bool) (s : State) (a : Nat) : (endDraw hit s).byteAt a = s.byteAt a := rfl

@[simp] theorem pixel_endDraw (hit : Bool) (s : State) (px py : Nat) : (endDraw hit s).pixel px py = s.pixel px py := rfl

@[simp] theorem reg_vf_endDraw (hit : Bool) (s : State) : (endDraw hit s).reg 0xF#4 = flagByte hit :=
  State.reg_setReg_self s 0xF#4 (flagByte hit)

theorem reg_vf_endDraw_eq_zero_or_one (hit : Bool) (s : State) :
    (endDraw hit s).reg 0xF#4 = 0x00#8 ∨ (endDraw hit s).reg 0xF#4 = 0x01#8 := by
  rw [reg_vf_endDraw]
  cases hit
  · exact .inl rfl
  · exact .inr rfl

theorem othersSame_endDraw (hit : Bool) (s : State) : OthersSame 0xF#4 s (endDraw hit s) :=
  othersSame_setReg s 0xF#4 (flagByte hit)

/-! ### A draw as its run of rows -/

/-- The first `k` rows of the sprite that `Dxyn` draws in `s` (R133). -/
def spriteRows (x y : Reg) (k : Nat) (s : State) : Except State (State × Bool) :=
  drawRows (startColumn x s / 8) (startColumn x s % 8) (startRow y s) (effBase s) k 0 false s

theorem exec_drw_of_ok {x y : Reg} {n : Nibble} {s t : State} {hit : Bool}
    (h : spriteRows x y n.toNat s = .ok (t, hit)) : exec (.drw x y n) s = .next (endDraw hit t) := by
  rw [spriteRows] at h
  simp only [exec, execDrw, h]

theorem exec_drw_of_error {x y : Reg} {n : Nibble} {s t : State} (h : spriteRows x y n.toNat s = .error t) :
    exec (.drw x y n) s = .next (Faulted .outOfBounds (0xD#4 ++ x ++ y ++ n) t) := by
  rw [spriteRows] at h
  simp only [exec, execDrw, h]
  rfl

/-- After rows that were drawn, the run goes on from them. -/
theorem spriteRows_add {x y : Reg} {k : Nat} {s t : State} {hit : Bool} (h : spriteRows x y k s = .ok (t, hit))
    (todo : Nat) : spriteRows x y (k + todo) s =
      drawRows (startColumn x s / 8) (startColumn x s % 8) (startRow y s) (effBase s) todo k hit t := by
  rw [spriteRows] at h
  rw [spriteRows, drawRows_append, h]
  simp only [Nat.zero_add]

/-- A row below the screen changes nothing (R134). -/
theorem spriteRows_succ_below {x y : Reg} {k : Nat} {s t : State} {hit : Bool}
    (h : spriteRows x y k s = .ok (t, hit)) (hrow : 31 < startRow y s + k) :
    spriteRows x y (k + 1) s = .ok (t, hit) := by
  rw [spriteRows_add h, drawRows_succ, if_neg (by simp only [Config.screenH]; omega)]
  rfl

/-- A row on the screen is drawn with the byte that Memory holds after the rows above it (R133, R137). -/
theorem spriteRows_succ {x y : Reg} {k : Nat} {s t : State} {hit : Bool} (h : spriteRows x y k s = .ok (t, hit))
    (hrow : startRow y s + k ≤ 31) (hbyte : effBase s + k ≤ 0xFFF) :
    spriteRows x y (k + 1) s =
      .ok ((blitRow (startColumn x s / 8) (startColumn x s % 8) (startRow y s + k) (t.byteAt (effBase s + k)) t).1,
        hit || (blitRow (startColumn x s / 8) (startColumn x s % 8) (startRow y s + k) (t.byteAt (effBase s + k)) t).2) := by
  have hp : startRow y s + k < Config.screenH := by simp only [Config.screenH]; omega
  have ha : effBase s + k < Config.memSize := by simp only [Config.memSize]; omega
  rw [spriteRows_add h, drawRows_succ, if_pos hp, memRead, if_pos ha]
  rfl

/-- A row on the screen whose byte is out of bounds stops the run, the rows above it drawn (R120). -/
theorem spriteRows_error {x y : Reg} {k n : Nat} {s t : State} {hit : Bool} (h : spriteRows x y k s = .ok (t, hit))
    (hk : k < n) (hrow : startRow y s + k ≤ 31) (hbyte : 0xFFF < effBase s + k) :
    spriteRows x y n s = .error t := by
  have hp : startRow y s + k < Config.screenH := by simp only [Config.screenH]; omega
  have ha : ¬ effBase s + k < Config.memSize := by simp only [Config.memSize]; omega
  rw [show n = k + (n - k - 1 + 1) by omega, spriteRows_add h, drawRows_succ, if_pos hp, memRead, if_neg ha]

theorem startColumn_div_lt (x : Reg) (s : State) : startColumn x s / 8 < 8 := by
  have := startColumn_lt x s
  omega

theorem startColumn_mod_lt (x : Reg) (s : State) : startColumn x s % 8 < 8 := Nat.mod_lt _ (by decide)

/-- A sprite in bounds is drawn in full: Memory alone changes, in the bytes that its rows store to. -/
theorem spriteRows_of_rowsInBounds {x y : Reg} {n : Nibble} {s : State} (h : RowsInBounds y n s) :
    ∃ m hit, spriteRows x y n.toNat s = .ok ({ s with mem := m }, hit) ∧
      (Memory.wf s.mem = true → Memory.wf m = true) ∧
      ∀ a, ¬ SpriteStoresTo x y n s a → Memory.read m a = s.byteAt a := by
  obtain ⟨m, hit, hok⟩ := drawRows_ok (startColumn x s / 8) (startColumn x s % 8) (startRow y s) (effBase s) n.toNat 0
    false s fun q _ hq hrow => Nat.lt_succ_of_le (h q (by omega) (by omega))
  obtain ⟨m', hrun, hread, hwf⟩ := drawRows_cases (startColumn x s / 8) (startColumn x s % 8) (startRow y s) (effBase s)
    n.toNat 0 false s
  rw [hok] at hrun
  obtain ⟨hit', hrun⟩ | hrun := hrun
  · obtain rfl : m = m' := congrArg (fun p => p.1.mem) (Except.ok.inj hrun)
    refine ⟨m, hit, hok, fun hs => hwf hs (startColumn_div_lt x s), fun a ha => hread a fun q _ hq hrow => ⟨?_, ?_⟩⟩
    · exact fun heq => ha ⟨q, by omega, by omega, .inl heq⟩
    · exact fun hnext => ha ⟨q, by omega, by omega, .inr hnext⟩
  · cases hrun

/-- Settles O34: the run of rows changes Memory alone, and the end of the draw writes `VF` and appends the frame; a run of
no row meets no pixel. -/
theorem drawCompletesAndRendersOnce : Obligations.DrawCompletesAndRendersOnce := by
  intro x y n s hb
  obtain ⟨m, hit, hrun, -, hread⟩ := spriteRows_of_rowsInBounds (x := x) hb
  refine ⟨_, exec_drw_of_ok hrun, rfl, rfl, othersSame_endDraw hit _, reg_vf_endDraw_eq_zero_or_one hit _, ?_,
    hread⟩
  · rintro rfl
    obtain rfl : false = hit := congrArg Prod.snd (Except.ok.inj hrun)
    exact reg_vf_endDraw false _

/-- Settles O38: the rows above row `k` are the whole of the shorter draw, and row `k` stops the longer one before `VF`. -/
theorem drawOutOfBoundsKeepsTheRowsAbove : Obligations.DrawOutOfBoundsKeepsTheRowsAbove := by
  intro x y n k s hk hrow hbyte hb
  obtain ⟨m, hit, hrun, -⟩ := spriteRows_of_rowsInBounds (x := x) hb
  exact ⟨_, exec_drw_of_ok hrun, exec_drw_of_error (spriteRows_error hrun hk hrow hbyte)⟩

/-! ### One row more -/

/-- The bit of a sprite row on a column, in the statements' terms. -/
theorem spriteBit_eq_true_iff (x : Reg) (s : State) (b : Byte) (px : Nat) :
    spriteBit (8 * (startColumn x s / 8) + startColumn x s % 8) b px = true ↔ RowSets x s b px := by
  simp only [Nat.div_add_mod, spriteBit, RowSets, Bool.and_eq_true, decide_eq_true_eq, and_assoc]

/-- An XOR with the bit of `p` inverts where `p` holds and leaves what there is where it does not. -/
theorem eq_not_or_eq_of_eq_xor {a b c : Bool} {p : Prop} (h : a = Bool.xor b c) (hc : c = true ↔ p) :
    (p → a = !b) ∧ (¬ p → a = b) := by
  subst h
  constructor
  · intro hp
    rw [hc.mpr hp, Bool.xor_true]
  · intro hp
    rw [Bool.eq_false_iff.mpr (mt hc.mp hp), Bool.xor_false]

theorem rowsInBounds_mono {y : Reg} {n m : Nibble} {s : State} (h : RowsInBounds y m s) (hle : n.toNat ≤ m.toNat) :
    RowsInBounds y n s := fun r hr => h r (by omega)

/-- The bytes of one screen row hold everything that one row of the sprite stores to (R134). -/
theorem byteAt_blitRow_other {col sh py : Nat} (b : Byte) (s : State) (hc : col < 8) {a : Nat}
    (ha : ¬ (0xF00 + 8 * py ≤ a ∧ a ≤ 0xF00 + 8 * py + 7)) : (blitRow col sh py b s).1.byteAt a = s.byteAt a := by
  obtain ⟨-, hother, -⟩ := blitRow_frame col sh py b s
  have hrow : rowAddr col py = 0xF00 + 8 * py + col := rfl
  exact hother a (by omega) (by omega)

/-- Settles O58: the run of one row more is the run of the rows above followed by one row, and the rules of one row say
what that row does. -/
theorem drawIsRowByRow : Obligations.DrawIsRowByRow := by
  intro x y s
  refine ⟨⟨_, exec_drw_of_ok (hit := false) rfl, rfl, reg_vf_endDraw false s⟩, fun n m hm hwf hb => ?_⟩
  obtain ⟨mem, hit, hrun, hmem, -⟩ := spriteRows_of_rowsInBounds (x := x) (rowsInBounds_mono (n := n) hb (by omega))
  have hcol := startColumn_div_lt x s
  have hsh := startColumn_mod_lt x s
  rcases Nat.lt_or_ge 31 (startRow y s + n.toNat) with hrow | hrow
  · have hnext := spriteRows_succ_below hrun hrow
    rw [← hm] at hnext
    exact ⟨_, _, exec_drw_of_ok hrun, exec_drw_of_ok hnext, fun _ => ⟨rfl, rfl⟩, fun _ => by omega⟩
  · have hnext := spriteRows_succ hrun hrow (hb n.toNat (by omega) hrow)
    rw [← hm] at hnext
    refine ⟨_, _, exec_drw_of_ok hrun, exec_drw_of_ok hnext, fun _ => by omega,
      fun _ => ⟨fun px hpx => ?_, fun a ha => byteAt_blitRow_other _ _ hcol ha, ?_⟩⟩
    · refine eq_not_or_eq_of_eq_xor ?_ (spriteBit_eq_true_iff x s _ px)
      rw [pixel_endDraw, pixel_endDraw, byteAt_endDraw, blitRow_pixel (hmem hwf) _ hcol hsh (Nat.lt_succ_of_le hrow) hpx,
        decide_eq_true rfl, Bool.true_and]
    · rw [reg_vf_endDraw, reg_vf_endDraw, flagByte_eq_one, flagByte_eq_one, Bool.or_eq_true, blitRow_hit _ hcol hsh]
      simp only [spriteBit_eq_true_iff, pixel_endDraw, byteAt_endDraw, and_comm]

/-! ### The picture after a draw -/

/-- What a completed `Dxyn` does to the picture, `bit` being the sprite bit that landed on each pixel (R132 to R135). -/
structure Draws (x y : Reg) (n : Nibble) (s : State) (bit : Nat → Nat → Bool) (t : State) : Prop where
  exec_eq : exec (.drw x y n) s = .next t
  wf : Memory.wf t.mem = true
  index : t.i = s.i
  others : OthersSame 0xF#4 s t
  outside : ∀ a, ¬ (0xF00 ≤ a ∧ a ≤ 0xFFF) → t.byteAt a = s.byteAt a
  pixel : ∀ px py, px < 64 → py < 32 → t.pixel px py = Bool.xor (s.pixel px py) (bit px py)
  flag : t.reg 0xF#4 = 0x00#8 ∨ t.reg 0xF#4 = 0x01#8
  collision : t.reg 0xF#4 = 0x01#8 ↔ ∃ px py, px < 64 ∧ py < 32 ∧ s.pixel px py = true ∧ bit px py = true
  bit_iff : SpriteBelowScreen y n s → ∀ px py, py < 32 → (bit px py = true ↔ SpriteSets x y n s px py)

/-- The row and the bit of a sprite on a pixel, in the statements' terms. -/
theorem spriteSets_iff (x y : Reg) (n : Nibble) (s : State) (px py : Nat) :
    SpriteSets x y n s px py ↔ (startRow y s ≤ py ∧ py < startRow y s + n.toNat) ∧
      RowSets x s (s.byteAt (effBase s + (py - startRow y s))) px := by
  unfold SpriteSets RowSets
  constructor
  · rintro ⟨hlo, hhi, hbit⟩
    exact ⟨⟨hlo, by omega⟩, hbit⟩
  · rintro ⟨⟨hlo, hhi⟩, hbit⟩
    exact ⟨hlo, by omega, hbit⟩

/-- The sprite bit that lands on a pixel when the rows were drawn with the bytes `B` (R132, R134). -/
def landingBit (x y : Reg) (n : Nibble) (s : State) (B : Nat → Byte) (px py : Nat) : Bool :=
  decide (startRow y s ≤ py ∧ py < startRow y s + n.toNat) &&
    spriteBit (8 * (startColumn x s / 8) + startColumn x s % 8) (B (py - startRow y s)) px

theorem landingBit_eq_true_iff (x y : Reg) (n : Nibble) (s : State) (B : Nat → Byte) (px py : Nat) :
    landingBit x y n s B px py = true ↔
      (startRow y s ≤ py ∧ py < startRow y s + n.toNat) ∧ RowSets x s (B (py - startRow y s)) px := by
  rw [landingBit, Bool.and_eq_true, decide_eq_true_eq, spriteBit_eq_true_iff]

/-- Every sprite in bounds is drawn with some bits, those of Memory before the draw where the sprite lies below the
framebuffer. -/
theorem exists_draws {x y : Reg} {n : Nibble} {s : State} (hwf : Memory.wf s.mem = true) (hb : RowsInBounds y n s) :
    ∃ bit t, Draws x y n s bit t := by
  obtain ⟨m, hit, hrun, hmem, -⟩ := spriteRows_of_rowsInBounds (x := x) hb
  obtain ⟨B, hpixel, hhit, hB⟩ := drawRows_spec (startColumn_div_lt x s) (startColumn_mod_lt x s) n.toNat 0 false s _ hit
    hwf hrun
  refine ⟨landingBit x y n s B, _, exec_drw_of_ok hrun, hmem hwf, rfl, othersSame_endDraw hit _, fun a ha => ?_, hpixel,
    reg_vf_endDraw_eq_zero_or_one hit _, ?_, fun hbelow px py hpy => ?_⟩
  · by_contra hne
    obtain ⟨hlo, hhi⟩ := mem_framebuffer_of_execDrw_byteAt_ne (exec_drw_of_ok hrun) hne
    exact ha ⟨hlo, Nat.le_of_lt_succ hhi⟩
  · rw [reg_vf_endDraw, flagByte_eq_one, hhit]
    simp only [landingBit_eq_true_iff, spriteBit_eq_true_iff, Bool.false_eq_true, false_or, Nat.add_zero, and_assoc,
      and_left_comm (a := State.pixel s _ _ = true)]
  · rw [spriteSets_iff, landingBit_eq_true_iff]
    refine and_congr_right fun ⟨hlo, hhi⟩ => ?_
    rw [hB (fun q _ hq hrow => hbelow q (by omega) (by omega)) (py - startRow y s) (by omega) (by omega) (by omega)]

theorem rowsInBounds_of_spriteBelowScreen {y : Reg} {n : Nibble} {s : State} (h : SpriteBelowScreen y n s) :
    RowsInBounds y n s := fun r hr hrow => by
  have := h r hr hrow
  omega

/-- Settles O35: the bits of a draw below the framebuffer are the sprite's. -/
theorem drawXorsEveryPixel : Obligations.DrawXorsEveryPixel := by
  intro x y n s hwf hbelow
  obtain ⟨bit, t, h⟩ := exists_draws (x := x) hwf (rowsInBounds_of_spriteBelowScreen hbelow)
  exact ⟨t, h.exec_eq, fun px py hpx hpy => eq_not_or_eq_of_eq_xor (h.pixel px py hpx hpy) (h.bit_iff hbelow px py hpy)⟩

/-- Settles O36: a set pixel is cleared exactly where a bit landed on it. -/
theorem collisionIffAPixelWasCleared : Obligations.CollisionIffAPixelWasCleared := by
  intro x y n s hwf hb
  obtain ⟨bit, t, h⟩ := exists_draws (x := x) hwf hb
  have hcleared : t.reg 0xF#4 = 0x01#8 ↔
      ∃ px py, px < 64 ∧ py < 32 ∧ s.pixel px py = true ∧ t.pixel px py = false := by
    rw [h.collision]
    refine exists₂_congr fun px py => and_congr_right fun hpx => and_congr_right fun hpy => and_congr_right fun hset => ?_
    rw [h.pixel px py hpx hpy, hset, Bool.true_xor, Bool.not_eq_false']
  exact ⟨t, h.exec_eq, hcleared.mpr, fun hno => h.flag.resolve_right (mt hcleared.mp hno)⟩

/-! ### Two draws -/

/-- A framebuffer byte is its eight pixels (R33). -/
theorem byteAt_eq_of_pixel_eq {s t : State} (h : ∀ px py, px < 64 → py < 32 → t.pixel px py = s.pixel px py) {a : Nat}
    (ha : 0xF00 ≤ a ∧ a ≤ 0xFFF) : t.byteAt a = s.byteAt a := by
  refine BitVec.eq_of_getLsbD_eq fun i hi => ?_
  have hbit := h (8 * ((a - 0xF00) % 8) + (7 - i)) ((a - 0xF00) / 8) (by omega) (by omega)
  have haddr : Config.fbBase + Config.rowBytes * ((a - 0xF00) / 8) + (8 * ((a - 0xF00) % 8) + (7 - i)) / 8 = a := by
    simp only [Config.fbBase, Config.rowBytes]
    omega
  have hidx : 7 - (8 * ((a - 0xF00) % 8) + (7 - i)) % 8 = i := by omega
  simpa only [State.pixel, haddr, hidx] using hbit

section
variable {x y : Reg} {n : Nibble} {s t : State} {bit : Nat → Nat → Bool} (h : Draws x y n s bit t)
include h

theorem Draws.effBase_eq : effBase t = effBase s := congrArg BitVec.toNat h.index

theorem Draws.startColumn_eq (hx : x ≠ 0xF#4) : startColumn x t = startColumn x s := by
  rw [startColumn, startColumn, h.others x hx]

theorem Draws.startRow_eq (hy : y ≠ 0xF#4) : startRow y t = startRow y s := by
  rw [startRow, startRow, h.others y hy]

/-- A draw leaves a sprite below the framebuffer, and the position where `VF` does not give it. -/
theorem Draws.spriteBelowScreen (hy : y ≠ 0xF#4) (hbelow : SpriteBelowScreen y n s) : SpriteBelowScreen y n t := by
  unfold SpriteBelowScreen
  rw [h.startRow_eq hy, h.effBase_eq]
  exact hbelow

theorem Draws.spriteSets_iff (hx : x ≠ 0xF#4) (hy : y ≠ 0xF#4) (hbelow : SpriteBelowScreen y n s) {px py : Nat}
    (hpy : py < 32) : SpriteSets x y n t px py ↔ SpriteSets x y n s px py := by
  unfold SpriteSets
  rw [h.startRow_eq hy, h.effBase_eq, h.startColumn_eq hx]
  refine and_congr_right fun hlo => and_congr_right fun hhi => ?_
  have := hbelow (py - startRow y s) hhi (by omega)
  rw [h.outside _ (by omega)]

end

/-- Settles O37: both draws XOR the same bits, so the second undoes the first, and it meets a set pixel exactly where the
first set one. -/
theorem drawTwiceRestoresTheScreen : Obligations.DrawTwiceRestoresTheScreen := by
  intro x y n s hx hy hwf hbelow
  obtain ⟨bit, t, h⟩ := exists_draws (x := x) hwf (rowsInBounds_of_spriteBelowScreen hbelow)
  have hbelow' := h.spriteBelowScreen hy hbelow
  obtain ⟨bit', u, h'⟩ := exists_draws (x := x) h.wf (rowsInBounds_of_spriteBelowScreen hbelow')
  have same : ∀ px py, py < 32 → bit' px py = bit px py := fun px py hpy => Bool.eq_iff_iff.mpr <| calc
    bit' px py = true ↔ SpriteSets x y n t px py := h'.bit_iff hbelow' px py hpy
    _ ↔ SpriteSets x y n s px py := h.spriteSets_iff hx hy hbelow hpy
    _ ↔ bit px py = true := (h.bit_iff hbelow px py hpy).symm
  refine ⟨t, u, h.exec_eq, h'.exec_eq, Memory.ext_read h'.wf hwf fun a => ?_, h'.collision.trans ?_⟩
  · by_cases ha : 0xF00 ≤ a ∧ a ≤ 0xFFF
    · refine byteAt_eq_of_pixel_eq (fun px py hpx hpy => ?_) ha
      rw [h'.pixel px py hpx hpy, h.pixel px py hpx hpy, same px py hpy, Bool.xor_assoc, Bool.xor_self, Bool.xor_false]
    · exact (h'.outside a ha).trans (h.outside a ha)
  · refine exists₂_congr fun px py => and_congr_right fun hpx => and_congr_right fun hpy => ?_
    rw [h.pixel px py hpx hpy, same px py hpy, and_comm, ← h.bit_iff hbelow px py hpy]
    refine and_congr_right fun hbit => ?_
    rw [hbit, Bool.xor_true, Bool.not_eq_true']

end Sys2Proof.Machine
end

section
/-! The family 45_timers_keys.md (R141 to R146): the audio event of a sound timer write in its three cases, which key
numbers name a pressed key, and from these the timer accesses, the key skips and the entry to the wait. -/

namespace Sys2Proof.Machine

open Sys2Proof Sys2Proof.Claims

/-! ### The audio event of a write to the sound timer -/

theorem audioOf_of_ne_zero (old : Byte) {new : Byte} (s : State) (hnew : new ≠ 0x00#8) :
    audioOf old new s = emit .audioStart s := if_pos hnew

theorem audioOf_zero_of_ne_zero {old : Byte} (s : State) (hold : old ≠ 0x00#8) :
    audioOf old 0x00#8 s = emit .audioStop s := if_pos hold

theorem audioOf_zero_zero (s : State) : audioOf 0x00#8 0x00#8 s = s := rfl

/-! ### Pressed keys -/

/-- A register names a pressed key exactly where it holds at most 15 and the bit of that key is set (D17, D18). -/
theorem keyDown_eq_decide (keys : BitVec 16) (b : Byte) :
    keyDown keys b = decide (b.toNat ≤ 15 ∧ keys.getLsbD b.toNat = true) := by
  have hkeys : b.toNat < Config.nKeys ↔ b.toNat ≤ 15 := Nat.lt_succ_iff
  simp only [keyDown, hkeys, Bool.decide_and, Bool.decide_eq_true]

/-! ### The statements -/

/-- Settles O39: the read writes one register with `DT`, the write updates `DT` alone. -/
theorem delayTimerAccess : Obligations.DelayTimerAccess := fun x =>
  ⟨encodes_encodeWord (i := .ldVxDt x) rfl, encodes_encodeWord (i := .ldDtVx x) rfl, fun _ =>
    ⟨⟨_, rfl, State.reg_setReg_self .., othersSame_setReg _ _ _, onlyV_setReg ..⟩, ⟨_, rfl, rfl, rfl, fun _ => rfl⟩⟩⟩

/-- Settles O40: signalling touches the trace alone, so `ST` is the only other field that differs; the trace by the three
cases of the old and the new value. -/
theorem soundTimerWriteSignalsAudio : Obligations.SoundTimerWriteSignalsAudio := by
  refine fun x => ⟨encodes_encodeWord (i := .ldStVx x) rfl, fun s => ⟨_, rfl, ?_, ?_, ?_, ?_, ?_, ?_⟩⟩
  · rw [audioOf_eq]
  · rw [audioOf_eq]
  · exact State.byteAt_congr (audioOf_mem ..)
  · intro hnew
    rw [audioOf_of_ne_zero _ _ hnew]
    rfl
  · intro hnew hold
    rw [hnew, audioOf_zero_of_ne_zero _ hold]
    rfl
  · intro hnew hold
    rw [hnew, hold, audioOf_zero_zero]

/-- Settles O41: both are conditional skips, on the key being down and on its negation. -/
theorem keySkips : Obligations.KeySkips := by
  refine fun x => ⟨encodes_encodeWord (i := .skp x) rfl, skipsWhen_of_exec fun s => ?_,
    encodes_encodeWord (i := .sknp x) rfl, skipsWhen_of_exec fun s => ?_⟩
  · rw [← keyDown_eq_decide]
    rfl
  · rw [decide_not, ← keyDown_eq_decide]
    rfl

/-- Settles O42: the entry writes the mode and `WX` and looks at nothing of the input. -/
theorem keyWaitIsEntered : Obligations.KeyWaitIsEntered := fun x =>
  ⟨encodes_encodeWord (i := .ldVxK x) rfl, fun _ => ⟨_, rfl, rfl, rfl, fun _ => rfl, rfl, fun _ => rfl⟩⟩

end Sys2Proof.Machine
end

section
/-! The family 60_exceptions.md (R150 to R168): the unknown opcodes, the timers, and how an instruction ends. An instruction
ends in its one fault, or silently, or with a frame, or with a write to the sound timer; what every step keeps of the trace
and what a halting step records are read off these four ends. -/

namespace Sys2Proof.Machine

open Sys2Proof Sys2Proof.Claims

/-! ### The unknown opcodes (R151) -/

theorem decode0_ne_unknownOpcode (f : Fields) : decode0 f ≠ .unknownOpcode := by
  unfold decode0
  split_ifs <;> exact WordDecode.noConfusion

theorem whenZero_eq_unknownOpcode_iff (n : Nibble) (i : Instr) : whenZero n i = .unknownOpcode ↔ n ≠ 0x0#4 := by
  simp [whenZero]

theorem decode8_eq_unknownOpcode_iff (f : Fields) :
    decode8 f = .unknownOpcode ↔ (0x8#4 ≤ f.n ∧ f.n ≤ 0xD#4) ∨ f.n = 0xF#4 := by
  unfold decode8
  split
  case h_10 =>
    refine iff_of_true rfl ?_
    simp only [imp_false] at *
    bv_omega
  all_goals
    next hn =>
      rw [hn]
      exact iff_of_false WordDecode.noConfusion (by decide)

theorem decodeE_eq_unknownOpcode_iff (f : Fields) : decodeE f = .unknownOpcode ↔ f.nn ∉ [0x9E#8, 0xA1#8] := by
  unfold decodeE
  split
  case h_3 => exact iff_of_true rfl (by simp_all)
  all_goals
    next hnn =>
      rw [hnn]
      exact iff_of_false WordDecode.noConfusion (by decide)

theorem decodeF_eq_unknownOpcode_iff (f : Fields) : decodeF f = .unknownOpcode ↔
    f.nn ∉ [0x07#8, 0x0A#8, 0x15#8, 0x18#8, 0x1E#8, 0x29#8, 0x33#8, 0x55#8, 0x65#8] := by
  unfold decodeF
  split
  case h_10 => exact iff_of_true rfl (by simp_all)
  all_goals
    next hnn =>
      rw [hnn]
      exact iff_of_false WordDecode.noConfusion (by decide)

/-- Settles O11: the prefixes 5, 8, 9, E and F have a second level, each with its own unknown keys, and the others select an
instruction for every word; the step is `step_of_unknownOpcode`, and `PC` two before the advanced one is the fetch address. -/
theorem unknownOpcodeHalts : Obligations.UnknownOpcodeHalts := by
  refine ⟨fun op => ?_, fun s hmode hpc hd => ?_⟩
  · unfold decodeWord selectInstr
    split
    case h_1 hp => simp [hp, decode0_ne_unknownOpcode]
    case h_6 hp | h_10 hp => simp [hp, whenZero_eq_unknownOpcode_iff]
    case h_9 hp => simp [hp, decode8_eq_unknownOpcode_iff]
    case h_15 hp => simp [hp, decodeE_eq_unknownOpcode_iff]
    case h_16 =>
      have hp : (fieldsOf op).pfx = 0xF#4 := by
        simp only [imp_false] at *
        bv_omega
      simp [hp, decodeF_eq_unknownOpcode_iff]
    all_goals next hp => simp [hp]
  · have hfault : (atDispatch s).pc - 2 = s.pc := by rw [atDispatch_eq, beforeDispatch_pc, BitVec.add_sub_cancel]
    rw [step_of_unknownOpcode hmode hpc hd, ← atDispatch_eq, Faulted, hfault]
    rfl

/-! ### The timers (R161 to R163) -/

theorem countdown_le (t : Byte) (k : Nat) : countdown t k ≤ t := by
  rw [BitVec.le_def, countdown_toNat]
  exact Nat.sub_le ..

theorem countdown_eq_zero_iff (t : Byte) (k : Nat) : countdown t k = 0x00#8 ↔ t.toNat ≤ k := by
  rw [← BitVec.toNat_inj, countdown_toNat, BitVec.toNat_ofNat]
  omega

@[simp] theorem timerEval_dt (k : Nat) (s : State) : (timerEval k s).dt = countdown s.dt k := by rw [timerEval_eq]

@[simp] theorem timerEval_st (k : Nat) (s : State) : (timerEval k s).st = countdown s.st k := by rw [timerEval_eq]

@[simp] theorem beforeDispatch_dt (s : State) : (beforeDispatch s).dt = countdown s.dt (nextInput s).k := timerEval_dt ..

@[simp] theorem beforeDispatch_st (s : State) : (beforeDispatch s).st = countdown s.st (nextInput s).k := timerEval_st ..

@[simp] theorem popInput_dt (s : State) : (popInput s).dt = s.dt := by rw [popInput_eq]

@[simp] theorem popInput_st (s : State) : (popInput s).st = s.st := by rw [popInput_eq]

@[simp] theorem popInput_err (s : State) : (popInput s).err = s.err := by rw [popInput_eq]

@[simp] theorem wakeUp_dt (event : Option Key) (s : State) : (wakeUp event s).dt = s.dt := by
  cases event <;> rfl

@[simp] theorem wakeUp_st (event : Option Key) (s : State) : (wakeUp event s).st = s.st := by
  cases event <;> rfl

/-- The timers signal exactly where the sound timer reaches 0 (R161). -/
theorem timerEvents_eq (k : Nat) (s : State) :
    timerEvents k s = if s.st.toNat ≠ 0 ∧ s.st.toNat ≤ k then [.audioStop] else [] := by
  have hzero : s.st = 0x00#8 ↔ s.st.toNat = 0 := BitVec.toNat_inj.symm
  simp only [timerEvents, countdown_eq_zero_iff, ne_eq, hzero]

/-- Settles O14: `countdown` is the subtraction, and the events are `timerEvents_eq`. -/
theorem timersFallByElapsedIntervals : Obligations.TimersFallByElapsedIntervals := by
  intro k s
  rw [timerEval_out, timerEvents_eq, timerEval_dt, timerEval_st]
  refine ⟨countdown_toNat .., countdown_toNat .., fun hne hle => ?_, fun h => ?_, ?_⟩
  · rw [if_pos ⟨hne, hle⟩]
  · rw [if_neg (by omega), List.append_nil]
  · rw [← timerEvents_eq]
    exact timerEval_eq k s

/-- Settles O49, by cases on what the step does: outside the dispatch a timer is left or counts down, and an instruction that
changes one is, by R24's columns, the one that sets it. -/
theorem timersRiseOnlyWhenSet : Obligations.TimersRiseOnlyWhenSet := by
  intro s t ht
  rcases stepByMode_cases s with ⟨-, h⟩ | ⟨-, h⟩ | ⟨-, -, h⟩ | ⟨-, -, -, h⟩ | ⟨i, u, hmode, hpc, hd, hexec, h⟩
  all_goals obtain rfl := eq_of_step ht h
  · exact ⟨fun _ => BitVec.le_refl _, fun _ => BitVec.le_refl _⟩
  · simp [countdown_le]
  · simp
  · simp [countdown_le]
  · obtain ⟨-, -, -, hdt, hst, -⟩ := specialRegistersWrittenOnlyAsListed i _ u hexec
    have unset {f : Reg → Instr} {new old : Byte} (hset : new ≠ old → ∃ x, i = f x)
        (hno : ∀ x, ¬ Dispatches s (f x)) : new = old := by
      by_contra hne
      obtain ⟨x, rfl⟩ := hset hne
      exact hno x ⟨hmode, hpc, hd⟩
    refine ⟨fun hno => ?_, fun hno => ?_⟩
    · rw [popInput_dt, unset hdt hno, beforeDispatch_dt]
      exact countdown_le ..
    · rw [popInput_st, unset hst hno, beforeDispatch_st]
      exact countdown_le ..

/-! ### How an instruction ends -/

/-- The one kind of fault that an instruction can raise (R152 to R155). -/
def faultKind : Instr → Option Fault
  | .ret => some .stackUnderflow
  | .call _ => some .stackOverflow
  | .sys _ => some .legacyCall
  | .drw _ _ _ | .ldBVx _ | .ldMemVx _ | .ldVxMem _ => some .outOfBounds
  | _ => none

/-- `Ends i s t`: executing `i` in `s` ends in `t`, sorted by what it does to the mode, the sound timer and the trace. -/
inductive Ends (i : Instr) (s : State) : State → Prop
  /-- The fault of its kind, raised with `PC`, the sound timer and the trace as the instruction found them. -/
  | fault {k : Fault} (u : State) (hk : faultKind i = some k) (hpc : u.pc = s.pc) (hst : u.st = s.st)
      (hout : u.out = s.out) : Ends i s (raiseBy i k u)
  | silent {t : State} (hmode : t.mode = .halt → s.mode = .halt) (hst : t.st = s.st) (hout : t.out = s.out) : Ends i s t
  | render {t : State} (frame : List Byte) (hmode : t.mode = s.mode) (hst : t.st = s.st)
      (hout : t.out = s.out ++ [.render frame]) : Ends i s t
  /-- A write to the sound timer, with its audio event. -/
  | signal (b : Byte) : Ends i s (audioOf s.st b { s with st := b })

theorem Ends.skipIf {i : Instr} (c : Bool) (s : State) : Ends i s (skipIf c s) := by
  rw [skipIf_eq]
  exact .silent id rfl rfl

theorem ends_of_exec {i : Instr} {s t : State} (h : exec i s = .next t) : Ends i s t := by
  have answered {u : State} (hu : exec i s = .next u) (hends : Ends i s u) : Ends i s t :=
    Host.Outcome.next.inj (h.symm.trans hu) ▸ hends
  cases i with
  | cls => exact answered (execCls_eq s) (.silent id rfl rfl)
  | ret =>
    rcases execRet_cases s with ⟨_, hu⟩ | ⟨-, hu⟩
    · exact answered hu (.silent id rfl rfl)
    · exact answered hu (.fault s rfl rfl rfl rfl)
  | sys nnn => exact answered rfl (.fault s rfl rfl rfl rfl)
  | call nnn =>
    rcases execCall_cases nnn s with ⟨_, hu⟩ | ⟨-, hu⟩
    · exact answered hu (.silent id rfl rfl)
    · exact answered hu (.fault s rfl rfl rfl rfl)
  | drw x y n =>
    obtain ⟨m, ⟨hit, hu⟩ | hu, -⟩ := execDrw_cases x y n s
    · exact answered hu (.render _ rfl rfl rfl)
    · exact answered hu (.fault _ rfl rfl rfl rfl)
  | ldBVx x =>
    obtain ⟨m, hu | hu, -⟩ := endAccess_storeRun (.ldBVx x) (bcdDigits (s.reg x)) (effBase s) s
    · exact answered hu (.silent id rfl rfl)
    · exact answered hu (.fault _ rfl rfl rfl rfl)
  | ldMemVx x =>
    obtain ⟨m, hu | hu, -⟩ := endAccess_storeRun (.ldMemVx x) ((regsTo x).map s.reg) (effBase s) s
    · exact answered hu (.silent id rfl rfl)
    · exact answered hu (.fault _ rfl rfl rfl rfl)
  | ldVxMem x =>
    obtain ⟨w, hu | hu, -⟩ := endAccess_loadRun (.ldVxMem x) (regsTo x) (effBase s) s
    · exact answered hu (.silent id rfl rfl)
    · exact answered hu (.fault _ rfl rfl rfl rfl)
  | seImm | sneImm | seReg | sneReg | skp | sknp => exact answered rfl (.skipIf ..)
  | ldStVx x => exact answered rfl (.signal (s.reg x))
  | ldVxK x => exact answered rfl (.silent nofun rfl rfl)
  | _ => exact answered rfl (.silent id rfl rfl)

/-- An instruction that halts the core ended in its fault. -/
theorem fault_of_exec_halt {i : Instr} {s t : State} (hs : s.mode ≠ .halt) (h : exec i s = .next t)
    (ht : t.mode = .halt) : ∃ k u, faultKind i = some k ∧ t = raiseBy i k u ∧ u.pc = s.pc := by
  cases ends_of_exec h with
  | fault u hk hpc => exact ⟨_, u, hk, rfl, hpc⟩
  | silent hmode => exact absurd (hmode ht) hs
  | render _ hmode => exact absurd (hmode ▸ ht) hs
  | signal b =>
    rw [audioOf_eq] at ht
    exact absurd ht hs

/-- Settles O51: a halting instruction ended in its fault, and `faultKind` is the list. -/
theorem eachInstructionHasOneFaultKind : Obligations.EachInstructionHasOneFaultKind := by
  intro i s t hs hexec ht
  obtain ⟨k, u, hk, rfl, -⟩ := fault_of_exec_halt hs hexec ht
  rw [raiseBy_eq, raise_err]
  cases i with
  | ret | call | sys | drw | ldBVx | ldMemVx | ldVxMem =>
    cases hk
    simp [Fault.code]
  | _ => cases hk

/-- Settles O50, by cases on what the step does: the fetch fault records `PC` unmoved, an unknown word the fetched word, and
a dispatched instruction its own word, which is the fetched one. -/
theorem faultRecordsFetchAddressAndWord : Obligations.FaultRecordsFetchAddressAndWord := by
  intro s t hmode ht hhalt
  rcases stepByMode_cases s with ⟨hm, -⟩ | ⟨hm, -⟩ | ⟨-, hout, h⟩ | ⟨-, hpc, -, h⟩ | ⟨i, u, -, hpc, hd, hexec, h⟩
  · simp [hmode] at hm
  · simp [hmode] at hm
  · obtain rfl := eq_of_step ht h
    rw [popInput_err, popInput_out, popInput_pc, raise_err, raise_out, raise_pc, List.getLast?_concat]
    exact ⟨rfl, rfl, fun _ => ⟨rfl, rfl, rfl⟩, fun _ => by omega⟩
  · obtain rfl := eq_of_step ht h
    rw [popInput_err, popInput_out, popInput_pc, raise_err, raise_out, raise_pc, List.getLast?_concat]
    exact ⟨rfl, rfl, fun _ => by omega, fun _ => ⟨rfl, beforeDispatch_pc s⟩⟩
  · obtain rfl := eq_of_step ht h
    have hs : (beforeDispatch s).mode ≠ .halt := by simp [hmode]
    obtain ⟨k, w, -, rfl, hwpc⟩ := fault_of_exec_halt hs hexec (by simpa using hhalt)
    obtain ⟨hword, -⟩ := encodeOfDecodeIsTheWord _ _ hd
    rw [raiseBy_eq, popInput_err, popInput_out, popInput_pc, raise_err, raise_out, raise_pc, List.getLast?_concat, hwpc,
      beforeDispatch_pc, BitVec.add_sub_cancel, hword]
    exact ⟨rfl, rfl, fun _ => by omega, fun _ => ⟨rfl, rfl⟩⟩

/-! ### `fatal` is the last event (R168) -/

/-- The trace holds no diagnostic. -/
def NoFatal (out : List Event) : Prop := out.all (fun e => !e.isFatal) = true

theorem NoFatal.append {out own : List Event} (h : NoFatal out) (hown : NoFatal own) : NoFatal (out ++ own) := by
  rw [NoFatal, List.all_append, h, hown, Bool.and_self]

theorem noFatal_timerEvents (k : Nat) (s : State) : NoFatal (timerEvents k s) := by
  rcases timerEvents_cases k s with h | h <;> rw [h] <;> rfl

theorem noFatal_audioOf {s : State} (old new : Byte) (h : NoFatal s.out) : NoFatal (audioOf old new s).out := by
  unfold audioOf
  split
  · exact h.append rfl
  · split
    · exact h.append rfl
    · exact h

theorem State.fatalIsLast_iff_of_ne_halt {s : State} (h : s.mode ≠ .halt) : s.FatalIsLast ↔ NoFatal s.out := by
  rw [State.FatalIsLast, if_neg h, NoFatal]

/-- Whatever raises a fault in a core that had emitted no diagnostic, its diagnostic is the one and the last. -/
theorem State.fatalIsLast_raise {s : State} (k : Fault) (a : Word) (op : Option Word) (h : NoFatal s.out) :
    (raise k a op s).FatalIsLast := by
  rw [State.FatalIsLast, if_pos (raise_mode ..)]
  exact ⟨s.out, rfl, h⟩

theorem State.fatalIsLast_popInput (s : State) : (popInput s).FatalIsLast ↔ s.FatalIsLast := by
  rw [State.FatalIsLast, State.FatalIsLast, popInput_mode, popInput_err, popInput_out]

theorem exec_fatalIsLast {i : Instr} {s t : State} (hs : s.mode ≠ .halt) (h : NoFatal s.out)
    (hexec : exec i s = .next t) : t.FatalIsLast := by
  cases ends_of_exec hexec with
  | fault u _ _ _ hout => exact State.fatalIsLast_raise _ _ _ (hout ▸ h)
  | silent hmode _ hout => exact (State.fatalIsLast_iff_of_ne_halt (mt hmode hs)).mpr (hout ▸ h)
  | render frame hmode _ hout =>
    refine (State.fatalIsLast_iff_of_ne_halt (hmode ▸ hs)).mpr ?_
    rw [hout]
    exact h.append rfl
  | signal b =>
    refine (State.fatalIsLast_iff_of_ne_halt ?_).mpr (noFatal_audioOf _ _ h)
    rw [audioOf_eq]
    exact hs

/-- Settles O47, by cases on what the step does: a core that is not halted has emitted no diagnostic, so a fault's is the
first, and no other event is one. -/
theorem stepKeepsFatalLast : Obligations.StepKeepsFatalLast := by
  intro s t hs ht
  have running (hm : s.mode ≠ .halt) : NoFatal s.out := (State.fatalIsLast_iff_of_ne_halt hm).mp hs
  have dispatching (hm : s.mode = .run) : NoFatal (beforeDispatch s).out := by
    rw [beforeDispatch_out]
    exact (running (by simp [hm])).append (noFatal_timerEvents ..)
  rcases stepByMode_cases s with ⟨-, h⟩ | ⟨hm, h⟩ | ⟨hm, -, h⟩ | ⟨hm, -, -, h⟩ | ⟨i, u, hm, -, -, hexec, h⟩
  all_goals obtain rfl := eq_of_step ht h
  · exact hs
  · have hwait : (wakeUp (nextInput s).keyEvent (timerEval (nextInput s).k s)).mode ≠ .halt := by
      rw [wakeUp_mode]
      split <;> simp [hm]
    rw [State.fatalIsLast_popInput, State.fatalIsLast_iff_of_ne_halt hwait, wakeUp_out, timerEval_out]
    exact (running (by simp [hm])).append (noFatal_timerEvents ..)
  · exact (State.fatalIsLast_popInput _).mpr (State.fatalIsLast_raise _ _ _ (running (by simp [hm])))
  · exact (State.fatalIsLast_popInput _).mpr (State.fatalIsLast_raise _ _ _ (dispatching hm))
  · exact (State.fatalIsLast_popInput _).mpr (exec_fatalIsLast (by simp [hm]) (dispatching hm) hexec)

/-! ### Audio is playing iff the sound timer is above 0 (R163) -/

@[simp] theorem playing_append_audioStart (out : List Event) : playing (out ++ [.audioStart]) = true := by
  rw [playing, List.foldl_concat]

@[simp] theorem playing_append_audioStop (out : List Event) : playing (out ++ [.audioStop]) = false := by
  rw [playing, List.foldl_concat]

@[simp] theorem playing_append_render (out : List Event) (frame : List Byte) :
    playing (out ++ [.render frame]) = playing out := by
  rw [playing, List.foldl_concat, playing]

@[simp] theorem playing_append_fatal (out : List Event) (k : Fault) (a : Word) (op : Option Word) :
    playing (out ++ [.fatal k a op]) = playing out := by
  rw [playing, List.foldl_concat, playing]

/-- The property speaks of the sound timer and of what the trace leaves playing. -/
theorem State.AudioInSync.of_eq {s t : State} (h : s.AudioInSync) (hst : t.st = s.st)
    (hout : playing t.out = playing s.out) : t.AudioInSync := by
  rw [State.AudioInSync, hst, hout, h]

theorem State.AudioInSync.raise {s : State} (h : s.AudioInSync) (k : Fault) (a : Word) (op : Option Word) :
    (raise k a op s).AudioInSync :=
  h.of_eq rfl (playing_append_fatal ..)

theorem State.AudioInSync.popInput {s : State} (h : s.AudioInSync) : (popInput s).AudioInSync :=
  h.of_eq (popInput_st s) (by rw [popInput_out])

theorem State.AudioInSync.wakeUp {s : State} (h : s.AudioInSync) (event : Option Key) : (wakeUp event s).AudioInSync :=
  h.of_eq (wakeUp_st event s) (by rw [wakeUp_out])

/-- The timers stop the audio exactly where they take the sound timer to 0 (R161). -/
theorem State.AudioInSync.timerEval {s : State} (h : s.AudioInSync) (k : Nat) : (timerEval k s).AudioInSync := by
  rw [State.AudioInSync, timerEval_out, timerEval_st, timerEvents]
  split
  · next hstop =>
    obtain ⟨-, hzero⟩ := hstop
    rw [playing_append_audioStop, hzero]
    rfl
  · next hgo =>
    have hsame : countdown s.st k = 0x00#8 ↔ s.st = 0x00#8 :=
      ⟨fun h0 => not_ne_iff.mp fun hne => hgo ⟨hne, h0⟩, fun h0 => by rw [h0]; rfl⟩
    rw [List.append_nil, h]
    simp only [ne_eq, hsame]

theorem State.AudioInSync.beforeDispatch {s : State} (h : s.AudioInSync) : (beforeDispatch s).AudioInSync :=
  State.AudioInSync.timerEval (s := advance s) h _

/-- A write to the sound timer starts the audio for a nonzero value and stops it for 0, where it was playing (R143). -/
theorem State.AudioInSync.signal {s : State} (h : s.AudioInSync) (b : Byte) :
    (audioOf s.st b { s with st := b }).AudioInSync := by
  unfold audioOf
  split
  · next hb => exact (playing_append_audioStart _).trans (decide_eq_true hb).symm
  · next hb =>
    obtain rfl : b = 0x00#8 := not_ne_iff.mp hb
    split
    · exact playing_append_audioStop _
    · next hst => exact h.of_eq (not_ne_iff.mp hst).symm rfl

theorem exec_keeps_audioInSync {i : Instr} {s t : State} (h : s.AudioInSync) (hexec : exec i s = .next t) :
    t.AudioInSync := by
  cases ends_of_exec hexec with
  | fault u _ _ hst hout => exact (h.of_eq hst (by rw [hout])).raise ..
  | silent _ hst hout => exact h.of_eq hst (by rw [hout])
  | render frame _ hst hout => exact h.of_eq hst (by rw [hout, playing_append_render])
  | signal b => exact h.signal b

/-- Settles O46, by cases on what the step does: the timers and `Fx18` signal what they do to the sound timer, and nothing
else writes it or emits an audio event. -/
theorem stepKeepsAudioInSync : Obligations.StepKeepsAudioInSync := by
  intro s t hs ht
  rcases stepByMode_cases s with ⟨-, h⟩ | ⟨-, h⟩ | ⟨-, -, h⟩ | ⟨-, -, -, h⟩ | ⟨i, u, -, -, -, hexec, h⟩
  all_goals obtain rfl := eq_of_step ht h
  · exact hs
  · exact ((hs.timerEval _).wakeUp _).popInput
  · exact (hs.raise ..).popInput
  · exact (hs.beforeDispatch.raise ..).popInput
  · exact (exec_keeps_audioInSync hs.beforeDispatch hexec).popInput

end Sys2Proof.Machine
end

section
/-! Construction and reset (R40, R175 to R178): what a load answers, the memory that construction leaves, and the state
around it. -/

namespace Sys2Proof.Machine

open Sys2Proof Sys2Proof.Claims

/-! ### Loading -/

theorem load_of_fits {bytes : List Byte} {a : Nat} (h : a + bytes.length ≤ 4096) (m : Memory) :
    load bytes a m = some (loadBytes bytes a m) :=
  if_pos h

theorem load_of_not_fits {bytes : List Byte} {a : Nat} (h : 4096 < a + bytes.length) (m : Memory) :
    load bytes a m = none :=
  if_neg (Nat.not_le_of_lt h)

/-- The byte at an offset of the range just loaded. -/
theorem read_loadBytes_add {bytes : List Byte} {a : Nat} {m : Memory} (hm : Memory.wf m = true)
    (h : a + bytes.length ≤ 4096) (j : Nat) (hj : j < bytes.length) :
    Memory.read (loadBytes bytes a m) (a + j) = bytes[j] := by
  have hin : a ≤ a + j ∧ a + j - a < bytes.length := by omega
  rw [read_loadBytes _ _ _ hm h, dif_pos hin]
  simp only [Nat.add_sub_cancel_left]

/-- The memory of construction: zeros, the font, then the program (R177). -/
def loadedMem (c : Config) (font program : List Byte) : Memory :=
  loadBytes program c.progBase.toNat (loadBytes font c.fontBase.toNat [])

/-- The state of construction: reset with that memory (`constructWith_of_fits`). -/
def constructed (c : Config) (font program : List Byte) : State :=
  { State.resetWith c with mem := loadedMem c font program }

theorem constructWith_of_fits {c : Config} {font program : List Byte} (hf : c.fontBase.toNat + font.length ≤ 4096)
    (hp : c.progBase.toNat + program.length ≤ 4096) :
    constructWith c font program = .next (constructed c font program) := by
  simp only [constructWith, load_of_fits hf, load_of_fits hp]
  rfl

theorem constructWith_of_not_fits {c : Config} {font program : List Byte}
    (h : 4096 < c.fontBase.toNat + font.length ∨ 4096 < c.progBase.toNat + program.length) :
    constructWith c font program = .refused .loadOutOfBounds := by
  by_cases hf : c.fontBase.toNat + font.length ≤ 4096
  · have hp : 4096 < c.progBase.toNat + program.length := by omega
    simp only [constructWith, load_of_fits hf, load_of_not_fits hp]
  · simp only [constructWith, load_of_not_fits (Nat.lt_of_not_le hf)]

/-- Construction answers a state only where both loads fit, and then the constructed one. -/
theorem eq_constructed_of_next {c : Config} {font program : List Byte} {t : State}
    (h : constructWith c font program = .next t) :
    (c.fontBase.toNat + font.length ≤ 4096 ∧ c.progBase.toNat + program.length ≤ 4096) ∧
      t = constructed c font program := by
  by_cases hfit : c.fontBase.toNat + font.length ≤ 4096 ∧ c.progBase.toNat + program.length ≤ 4096
  · obtain ⟨hf, hp⟩ := hfit
    rw [constructWith_of_fits hf hp] at h
    exact ⟨⟨hf, hp⟩, (Host.Outcome.next.inj h).symm⟩
  · rw [constructWith_of_not_fits (by omega)] at h
    cases h

/-! ### The memory of construction -/

section
variable {c : Config} {font program : List Byte}

theorem loadedMem_wf (hf : c.fontBase.toNat + font.length ≤ 4096) (hp : c.progBase.toNat + program.length ≤ 4096) :
    Memory.wf (loadedMem c font program) = true :=
  loadBytes_wf _ _ _ (loadBytes_wf _ _ _ rfl hf) hp

theorem byteAt_constructed_program (hf : c.fontBase.toNat + font.length ≤ 4096)
    (hp : c.progBase.toNat + program.length ≤ 4096) (j : Nat) (h : j < program.length) :
    (constructed c font program).byteAt (c.progBase.toNat + j) = program[j] :=
  read_loadBytes_add (loadBytes_wf _ _ _ rfl hf) hp j h

/-- Where the program does not reach, the font's load is what is read. -/
theorem byteAt_constructed_outside_program {a : Nat}
    (h : ¬ (c.progBase.toNat ≤ a ∧ a < c.progBase.toNat + program.length)) :
    (constructed c font program).byteAt a = Memory.read (loadBytes font c.fontBase.toNat []) a :=
  read_loadBytes_other _ _ _ _ (by omega)

theorem byteAt_constructed_font (hf : c.fontBase.toNat + font.length ≤ 4096) (j : Nat) (h : j < font.length)
    (hout : ¬ (c.progBase.toNat ≤ c.fontBase.toNat + j ∧
      c.fontBase.toNat + j < c.progBase.toNat + program.length)) :
    (constructed c font program).byteAt (c.fontBase.toNat + j) = font[j] :=
  (byteAt_constructed_outside_program hout).trans (read_loadBytes_add rfl hf j h)

theorem byteAt_constructed_elsewhere (a : Nat)
    (hp : ¬ (c.progBase.toNat ≤ a ∧ a < c.progBase.toNat + program.length))
    (hf : ¬ (c.fontBase.toNat ≤ a ∧ a < c.fontBase.toNat + font.length)) :
    (constructed c font program).byteAt a = 0x00#8 := by
  rw [byteAt_constructed_outside_program hp, read_loadBytes_other _ _ _ _ (by omega)]
  rfl

end

/-- Settles O7: both loads answer where they fit, and a byte of the constructed memory is the last one loaded there. -/
theorem constructionLoadsFontThenProgram : Obligations.ConstructionLoadsFontThenProgram := by
  intro c font program
  refine ⟨fun hf hp => ?_, constructWith_of_not_fits⟩
  exact ⟨_, constructWith_of_fits hf hp, rfl, byteAt_constructed_program hf hp, byteAt_constructed_font hf,
    byteAt_constructed_elsewhere⟩

/-! ### Reset at any time -/

theorem assertReset_of_next {s c : State} {font program : List Byte} (h : constructWith s.cfg font program = .next c) :
    assertReset font program s = .next { c with inputs := s.inputs, freeUsed := s.freeUsed, out := s.out } := by
  rw [assertReset, h]

/-- Settles O57: `assertReset` answers the constructed state with three fields of the environment, and the rest of it is
reset's (O6) around the memory of O7. -/
theorem resetAtAnyTimeConstructsAgain : Obligations.ResetAtAnyTimeConstructsAgain := by
  intro s font program
  refine ⟨fun hf hp => ?_, fun hout => ?_⟩
  · have hc := constructWith_of_fits hf hp
    obtain ⟨hreg, hi, hpc, hdt, hst, hsp, hmode, -, -, hcfg⟩ := resetValues.2 s.cfg
    exact ⟨_, _, hc, assertReset_of_next hc, rfl, hreg, hi, hpc, hdt, hst, hsp, hmode, hcfg,
      byteAt_constructed_program hf hp, byteAt_constructed_elsewhere⟩
  · rw [assertReset, constructWith_of_not_fits hout]

/-! ### The invariants at reset -/

/-- The bounds hold around any canonical memory: the stack is empty, `I` is 0 and `PC` is the parameter R5 bounds. -/
theorem inv_resetWith_mem {c : Config} (hc : c.wf) {m : Memory} (hm : Memory.wf m = true) :
    State.Inv { State.resetWith c with mem := m } where
  mem := hm
  cfg := hc
  index := Nat.zero_le _
  pc := by
    obtain ⟨-, hprog⟩ := hc
    change c.progBase.toNat ≤ 0x10FE
    simp only [Config.fbBase] at hprog
    omega
  stack := fun _ _ h => absurd h (Nat.not_lt_zero _)

/-- Nothing plays: the trace is empty and the sound timer is 0. -/
theorem audioInSync_resetWith_mem (c : Config) (m : Memory) :
    State.AudioInSync { State.resetWith c with mem := m } := rfl

/-- The core runs, and the trace is empty. -/
theorem fatalIsLast_resetWith_mem (c : Config) (m : Memory) :
    State.FatalIsLast { State.resetWith c with mem := m } :=
  (State.fatalIsLast_iff_of_ne_halt (show Mode.run ≠ Mode.halt by decide)).mpr rfl

/-- Settles O45: construction changes reset in Memory alone, which the loads keep canonical. -/
theorem resetMeetsInvariants : Obligations.ResetMeetsInvariants := by
  have hdefault : Config.default.wf := by decide
  refine ⟨inv_resetWith_mem hdefault (m := []) rfl, audioInSync_resetWith_mem Config.default [],
    fatalIsLast_resetWith_mem Config.default [], ?_⟩
  intro c font program t hc h
  obtain ⟨⟨hf, hp⟩, rfl⟩ := eq_constructed_of_next h
  exact ⟨inv_resetWith_mem hc (loadedMem_wf hf hp), audioInSync_resetWith_mem .., fatalIsLast_resetWith_mem ..⟩

/-! ### Words of the opcode map -/

/-- Settles O1: eight of the byte runs are what `encode` spells the instruction as, so they decode by O2; 8128 is a key
that the table of O4 does not list. -/
theorem specWordsDecode : Obligations.SpecWordsDecode := by
  have decodes := decodeOfEncodeIsTheInstruction
  have unknown : decodeWord (opcodeOf 0x81#8 0x28#8) = .unknownOpcode := prefixEightIsKeyedOnN 0x1#4 0x2#4 0x8#4
  refine ⟨decodes .cls [] rfl, decodes (.call 0x210#12) _ rfl, decodes (.ldImm 0xA#4 0x2C#8) [] rfl,
    decodes (.subn 0x1#4 0x2#4) [] rfl, decodes (.drw 0x1#4 0x2#4 0x3#4) [] rfl, decodes (.skp 0x2#4) [] rfl,
    decodes (.ldVxMem 0x3#4) [] rfl, decodes (.sys 0x0E1#12) [] rfl, ?_, rfl⟩
  simp only [decode, unknown]

end Sys2Proof.Machine
end
